-- ==== Sys2Proof/Word.lean ====
section
/-! DEFINITION. The 16-bit word, the machine's one unit of instruction, register and memory (R5, R9, R30). -/

namespace Sys2Proof

/-- `Word16` of R9: a 16-bit pattern, bit 15 the most significant. Its `+` is the `+16` of R9. -/
abbrev Word := BitVec 16

end Sys2Proof
end

