-- ==== Sys2Proof/Syntax.lean ====
section
/-! DEFINITION. The eight instructions of spec/opcode_table.json, with the fields of their formats
(R52, R53, R57). -/

namespace Sys2Proof

/-- The eight general registers (R10). -/
inductive Reg where
  | r0 | r1 | r2 | r3 | r4 | r5 | r6 | r7
  deriving DecidableEq, Repr

/-- The number of a register, the value that selects it in a 3-bit field (R11). -/
def Reg.num : Reg → Nat
  | .r0 => 0 | .r1 => 1 | .r2 => 2 | .r3 => 3 | .r4 => 4 | .r5 => 5 | .r6 => 6 | .r7 => 7

/-- An instruction as the decoder delivers it (R57, R80). `ra`, `rb`, `rc` are the fields at bits
[12:10], [9:7] and [2:0]; which of them is the destination differs by instruction (R14).
`simm` is the 7-bit immediate already sign-extended to 16 bits (R55), `imm` the unsigned 10-bit one (R56). -/
inductive Instr where
  /-- ADD, `x[rc] <- x[ra] + x[rb]` (R90). -/
  | add (ra rb rc : Reg)
  /-- ADDI, `x[rb] <- x[ra] + simm` (R91). -/
  | addi (ra rb : Reg) (simm : Word)
  /-- NAND, `x[rc] <- ~(x[ra] & x[rb])` (R92). -/
  | nand (ra rb rc : Reg)
  /-- LUI, `x[ra] <- imm << 6` (R93). -/
  | lui (ra : Reg) (imm : BitVec 10)
  /-- LW, `x[rb] <- mem[x[ra] + simm]` (R100). -/
  | lw (ra rb : Reg) (simm : Word)
  /-- SW, `mem[x[ra] + simm] <- x[rb]` (R101). -/
  | sw (ra rb : Reg) (simm : Word)
  /-- BEQ, `if x[ra] = x[rb] then pc <- pc + 1 + simm` (R111). -/
  | beq (ra rb : Reg) (simm : Word)
  /-- JALR, `x[rb] <- pc + 1; pc <- x[ra]`; the decoded instruction keeps `simm` (R57, R61) and its
  meaning ignores it (R60). -/
  | jalr (ra rb : Reg) (simm : Word)
  deriving DecidableEq, Repr

end Sys2Proof
end

