-- ==== Sys2Proof/WellFormed.lean ====
section
/-! DEFINITION. Which instruction terms an instruction word can carry: the one condition the types do not
already enforce is the range of the sign-extended 7-bit immediate (R55). -/

namespace Sys2Proof

/-- A delivered `simm` is a 16-bit word whose signed value lies in `-64..63` (R55). -/
def fitsSimm (v : Word) : Bool := decide (-64 ≤ v.toInt ∧ v.toInt ≤ 63)

/-- Some 16-bit word encodes this instruction. -/
def Instr.wf : Instr → Bool
  | .add _ _ _ => true
  | .addi _ _ simm => fitsSimm simm
  | .nand _ _ _ => true
  | .lui _ _ => true
  | .lw _ _ simm => fitsSimm simm
  | .sw _ _ simm => fitsSimm simm
  | .beq _ _ simm => fitsSimm simm
  | .jalr _ _ simm => fitsSimm simm

end Sys2Proof
end

