-- ==== Sys2Proof/Decode.lean ====
section
/-! DEFINITION. The decoder (R51 to R60), the encoder that is its inverse (R61), and the reading of an
opcode-table word. The decoder is total: no word is rejected, so there is nothing to reject by name (R58). -/

namespace Sys2Proof

/-- The register a 3-bit field selects, the field read as an unsigned number (R11). -/
def Reg.ofBits (b : BitVec 3) : Reg :=
  match b[2], b[1], b[0] with
  | false, false, false => .r0
  | false, false, true => .r1
  | false, true, false => .r2
  | false, true, true => .r3
  | true, false, false => .r4
  | true, false, true => .r5
  | true, true, false => .r6
  | true, true, true => .r7

/-- The 3-bit field that selects a register (R11). -/
def Reg.toBits (r : Reg) : BitVec 3 := BitVec.ofNat 3 r.num

/-- `ra = w[12:10]` (R54). -/
def raField (w : Word) : Reg := Reg.ofBits (w.extractLsb' 10 3)

/-- `rb = w[9:7]` (R54). -/
def rbField (w : Word) : Reg := Reg.ofBits (w.extractLsb' 7 3)

/-- `rc = w[2:0]` (R54). -/
def rcField (w : Word) : Reg := Reg.ofBits (w.extractLsb' 0 3)

/-- `simm = sext_16(w[6:0])` (R55). -/
def simmField (w : Word) : Word := (w.extractLsb' 0 7).signExtend 16

/-- `imm = w[9:0]` (R56). -/
def immField (w : Word) : BitVec 10 := w.extractLsb' 0 10

/-- The decoder of R57: eight arms on the opcode bits [15:13], and no default arm. -/
def decode (w : Word) : Instr :=
  match w[15], w[14], w[13] with
  | false, false, false => .add (raField w) (rbField w) (rcField w)
  | false, false, true => .addi (raField w) (rbField w) (simmField w)
  | false, true, false => .nand (raField w) (rbField w) (rcField w)
  | false, true, true => .lui (raField w) (immField w)
  | true, false, false => .lw (raField w) (rbField w) (simmField w)
  | true, false, true => .sw (raField w) (rbField w) (simmField w)
  | true, true, false => .beq (raField w) (rbField w) (simmField w)
  | true, true, true => .jalr (raField w) (rbField w) (simmField w)

/-- An RRR word, zero in the unused bits [6:3] (R52, R61). -/
def wordRRR (op : BitVec 3) (ra rb rc : Reg) : Word :=
  op ++ ra.toBits ++ rb.toBits ++ 0#4 ++ rc.toBits

/-- An RRI word, the low seven bits of the delivered immediate in [6:0] (R52). -/
def wordRRI (op : BitVec 3) (ra rb : Reg) (simm : Word) : Word :=
  op ++ ra.toBits ++ rb.toBits ++ simm.extractLsb' 0 7

/-- An RI word (R52). -/
def wordRI (op : BitVec 3) (ra : Reg) (imm : BitVec 10) : Word :=
  op ++ ra.toBits ++ imm

/-- The encoder of R61, from the opcode map R53 and the formats R52. Not part of the hardware. -/
def encode : Instr → Word
  | .add ra rb rc => wordRRR 0b000#3 ra rb rc
  | .addi ra rb simm => wordRRI 0b001#3 ra rb simm
  | .nand ra rb rc => wordRRR 0b010#3 ra rb rc
  | .lui ra imm => wordRI 0b011#3 ra imm
  | .lw ra rb simm => wordRRI 0b100#3 ra rb simm
  | .sw ra rb simm => wordRRI 0b101#3 ra rb simm
  | .beq ra rb simm => wordRRI 0b110#3 ra rb simm
  | .jalr ra rb simm => wordRRI 0b111#3 ra rb simm

/-- The one 16-bit word of an opcode-table row: its low `nbits` bits, zero above (every instruction is one
word, R50). -/
def tableWord (nbits w : Nat) : Word := BitVec.ofNat 16 (w % 2 ^ nbits)

/-- What the decoder reads from an opcode-table word; it refuses none (R58). -/
def decodeTableWord (nbits w : Nat) : Option Instr := some (decode (tableWord nbits w))

end Sys2Proof
end

