-- ==== Sys2Proof/Config.lean ====
section
/-! DEFINITION. What an implementation fixes: the memory size `MEM_SIZE` (R6, R7). -/

namespace Sys2Proof

/-- The constant a core is built with. `MEM_SIZE` lies in `1..65536` (R6), so it is held as the address of
the last memory word, a plain 16-bit value: `MEM_SIZE = topAddr + 1`. Every value of `topAddr` is a legal
size and every legal size is a value of `topAddr`. -/
structure Config where
  topAddr : Word
  deriving DecidableEq, Repr

/-- `MEM_SIZE`, the number of words in the memory array (R6). -/
def Config.memSize (c : Config) : Nat := c.topAddr.toNat + 1

/-- The configuration with `MEM_SIZE = n`, for `n` in `1..65536` (R6). -/
def Config.ofMemSize (n : Nat) : Config := ⟨BitVec.ofNat 16 (n - 1)⟩

end Sys2Proof
end

