-- ==== Sys2Proof/Machine/State.lean ====
section
/-! DEFINITION. The state of the core as plain data (10_state.md), the one fault it raises, its reset value,
and the values that pass from execution to commit (R70, R80). -/

namespace Sys2Proof.Machine

/-- The stored registers r1 to r7; r0 has no storage (R10, R12). -/
structure RegFile where
  r1 : Word
  r2 : Word
  r3 : Word
  r4 : Word
  r5 : Word
  r6 : Word
  r7 : Word
  deriving DecidableEq, Repr

/-- The memory array of R22 as the list of its words that differ from `Memory.unlisted`, by strictly rising
word address. The unit is the word, never the byte (R30, R36). -/
abbrev Memory := List (Nat × Word)

/-- What an address with no entry reads as. DESIGN CHOICE (log entry 3). -/
def Memory.unlisted : Word := 0#16

/-- The canonical form: addresses strictly rising, no entry equal to what an unlisted address reads as. -/
abbrev Memory.wf (m : Memory) : Prop :=
  m.Pairwise (fun c d => c.1 < d.1) ∧ ∀ c ∈ m, c.2 ≠ Memory.unlisted

/-- The whole state of the core (head of 10_state.md), beside the constant `MEM_SIZE` of its build. -/
structure State where
  /-- `MEM_SIZE` (R6); no step changes it. -/
  config : Config
  /-- r1 to r7 (R10). -/
  regs : RegFile
  /-- The program counter, a word address (R15). -/
  pc : Word
  /-- The memory array (R22). -/
  mem : Memory
  /-- The step counter (R20). -/
  steps : Nat
  deriving DecidableEq, Repr

/-- The three accesses that can fall outside the memory array (R120, R121). -/
inductive AccessKind where
  | fetch | load | store
  deriving DecidableEq, Repr

/-- Why a step stops. -/
inductive Fault where
  /-- `MemoryOutOfBounds(kind, addr)` (R120, R121), raised by the fetch of `Machine.step`, by LW
  (`execLw`) and by SW (`execSw`) when the address is at or above `MEM_SIZE`; the step commits nothing
  (R122). Safe: the hardware stops there too. -/
  | memoryOutOfBounds (kind : AccessKind) (addr : Word)
  deriving DecidableEq, Repr

/-- Why a step has no meaning. No step of this model is refused: decoding is total and all eight
instructions have their meaning (R58, R78). -/
inductive Refusal where
  /-- An instruction the model leaves without a meaning; raised by nothing in this model. Safe. -/
  | notModelled (mnemonic : String)
  deriving DecidableEq, Repr

/-- The outcome of a step of this machine. -/
abbrev Result := Host.Outcome State Fault Refusal

/-- What `execute(i, s)` yields to the commit (R70): the register write, the memory write, the new pc. -/
structure Effect where
  /-- `(rd, val)`: the result register, r0 included, and its value (R75). -/
  dest : Option (Reg × Word)
  /-- `store = (a, v)`: the word address written and its new word. -/
  store : Option (Word × Word)
  /-- `next_pc`. -/
  nextPc : Word
  deriving DecidableEq, Repr

/-- All seven stored registers zero. DESIGN CHOICE (log entry 2): the spec states no reset value (R142). -/
def RegFile.zero : RegFile := ⟨0#16, 0#16, 0#16, 0#16, 0#16, 0#16, 0#16⟩

/-- The core right after reset, that is after its creation (R24, R140): `pc = 0`, `steps = 0`.
`MEM_SIZE`, r1 to r7 and the memory image are open in the spec; the values here are DESIGN CHOICES (log
entries 1, 2 and 3), and `State.create` takes them as arguments. -/
def State.reset : State where
  config := ⟨0xFFFF#16⟩
  regs := RegFile.zero
  pc := 0#16
  mem := []
  steps := 0

/-- Memory in canonical form with every entry inside the array of `MEM_SIZE` words (R22, R31). -/
abbrev State.wf (s : State) : Prop :=
  s.mem.wf ∧ ∀ c ∈ s.mem, c.1 < s.config.memSize

end Sys2Proof.Machine
end

