-- ==== Sys2Proof/Machine/Ops.lean ====
section
/-! DEFINITION. The operations every instruction is made of: register read and write (R12, R13), memory read
and write with their bounds test (R31 to R35), raising the one fault (R120), and the commit (R70, R77).

There is no trap entry and no return from one to model (R126, R127): `raise` is all that taking an exception
means on this core. -/

namespace Sys2Proof.Machine

/-- Read of a register; r0 reads as zero (R12). -/
def RegFile.read (f : RegFile) : Reg → Word
  | .r0 => 0#16
  | .r1 => f.r1
  | .r2 => f.r2
  | .r3 => f.r3
  | .r4 => f.r4
  | .r5 => f.r5
  | .r6 => f.r6
  | .r7 => f.r7

/-- Write of a register; a write to r0 is discarded (R13). -/
def RegFile.write (f : RegFile) (r : Reg) (v : Word) : RegFile :=
  match r with
  | .r0 => f
  | .r1 => { f with r1 := v }
  | .r2 => { f with r2 := v }
  | .r3 => { f with r3 := v }
  | .r4 => { f with r4 := v }
  | .r5 => { f with r5 := v }
  | .r6 => { f with r6 := v }
  | .r7 => { f with r7 := v }

/-- `x[i]` of R9. -/
def State.reg (s : State) (r : Reg) : Word := s.regs.read r

/-- The word at a word address. -/
def Memory.wordAt : Memory → Nat → Word
  | [], _ => Memory.unlisted
  | (k, v) :: m, a => if k = a then v else Memory.wordAt m a

/-- The memory without its entry for an address. -/
def Memory.drop (m : Memory) (a : Nat) : Memory := m.filter (fun c => c.1 != a)

/-- The memory with an entry put before the first larger address. -/
def Memory.insert : Memory → Nat → Word → Memory
  | [], a, v => [(a, v)]
  | (k, w) :: m, a, v => if a < k then (a, v) :: (k, w) :: m else (k, w) :: Memory.insert m a v

/-- The memory with the word at one address replaced; the canonical form is kept. -/
def Memory.put (m : Memory) (a : Nat) (v : Word) : Memory :=
  if v = Memory.unlisted then m.drop a else (m.drop a).insert a v

/-- `mem[a]` of R9. -/
def State.word (s : State) (a : Word) : Word := s.mem.wordAt a.toNat

/-- The bounds test, the same for fetch, load and store (R31, R35): `a < MEM_SIZE`. -/
def State.inBounds (s : State) (a : Word) : Bool := decide (a.toNat < s.config.memSize)

/-- `raise MemoryOutOfBounds(kind, a)` (R120). -/
def raise {α : Type} (kind : AccessKind) (a : Word) : Except Fault α :=
  .error (.memoryOutOfBounds kind a)

/-- `MemRead(a, 1)` (R33). -/
def memRead (kind : AccessKind) (a : Word) (s : State) : Except Fault Word :=
  if s.inBounds a then .ok (s.word a) else raise kind a

/-- `MemWrite(a, 1, v)` (R34): the write that the commit will make, or the fault. -/
def memWrite (a v : Word) (s : State) : Except Fault (Word × Word) :=
  if s.inBounds a then .ok (a, v) else raise .store a

/-- The fetch of R71: the word at `pc`. -/
def fetch (s : State) : Except Fault Word := memRead .fetch s.pc s

/-- Write-back of the at most one result register (R75). -/
def RegFile.writeBack (f : RegFile) : Option (Reg × Word) → RegFile
  | none => f
  | some (r, v) => f.write r v

/-- The at most one memory write of a step (R32). -/
def Memory.commitStore (m : Memory) : Option (Word × Word) → Memory
  | none => m
  | some (a, v) => m.put a.toNat v

/-- The commit of R70 and R77: register write, memory write, new pc and `steps + 1` as one change. -/
def State.commit (s : State) (e : Effect) : State where
  config := s.config
  regs := s.regs.writeBack e.dest
  pc := e.nextPc
  mem := s.mem.commitStore e.store
  steps := s.steps + 1

/-- The end of a step: a fault commits nothing (R122), an effect is committed (R77). -/
def State.finish (s : State) : Except Fault Effect → Result
  | .error f => .fault f
  | .ok e => .next (s.commit e)

end Sys2Proof.Machine
end

