-- ==== Sys2Proof/Machine/Operands.lean ====
section
/-! DEFINITION. The addresses instructions compute with: the one addressing mode (R102, R103) and the
candidates of the program-counter logic (R110). All sums are modulo 2^16 (R17, R94, R102). -/

namespace Sys2Proof.Machine

/-- The effective address of LW and SW, `x[ra] +16 simm` (R102, decision D3, log entry 7). -/
def State.effAddr (s : State) (ra : Reg) (simm : Word) : Word := s.reg ra + simm

/-- The sequential address `pc +16 1` (R110; its wrap is decision D2, log entry 6). -/
def State.seqPc (s : State) : Word := s.pc + 1#16

/-- The branch target `pc +16 1 +16 simm` (R110; its wrap is decision D2, log entry 6). -/
def State.branchTarget (s : State) (simm : Word) : Word := s.pc + 1#16 + simm

end Sys2Proof.Machine
end

