-- ==== Sys2Proof/Machine/Alu.lean ====
section
/-! DEFINITION. ADD, ADDI, NAND and LUI (41_alu.md R90 to R95). -/

namespace Sys2Proof.Machine

/-- An instruction that only writes one register and goes on to the next word (head of 41_alu.md). -/
def State.writeAndAdvance (s : State) (rd : Reg) (v : Word) : Result :=
  s.finish (.ok { dest := some (rd, v), store := none, nextPc := s.seqPc })

/-- The complement over exactly 16 bits of the bitwise AND (R92). -/
def nandWord (a b : Word) : Word := ~~~(a &&& b)

/-- `imm :: 0b000000`, bits [15:6] the immediate, bits [5:0] zero (R93). -/
def upperWord (imm : BitVec 10) : Word := imm ++ 0#6

/-- ADD (R90). -/
def execAdd (ra rb rc : Reg) (s : State) : Result :=
  s.writeAndAdvance rc (s.reg ra + s.reg rb)

/-- ADDI (R91); the destination is the `rb` field. -/
def execAddi (ra rb : Reg) (simm : Word) (s : State) : Result :=
  s.writeAndAdvance rb (s.reg ra + simm)

/-- NAND (R92). -/
def execNand (ra rb rc : Reg) (s : State) : Result :=
  s.writeAndAdvance rc (nandWord (s.reg ra) (s.reg rb))

/-- LUI (R93); the destination is the `ra` field. -/
def execLui (ra : Reg) (imm : BitVec 10) (s : State) : Result :=
  s.writeAndAdvance ra (upperWord imm)

end Sys2Proof.Machine
end

