-- ==== Sys2Proof/Machine/Flags.lean ====
section
/-! DEFINITION. The core has no flags and no condition codes (R18). The one condition an instruction tests is
BEQ's own comparison of two registers (R111). -/

namespace Sys2Proof.Machine

/-- Equality of the two 16-bit patterns, no signed or unsigned variant (R111). -/
def State.regsEqual (s : State) (ra rb : Reg) : Bool := decide (s.reg ra = s.reg rb)

end Sys2Proof.Machine
end

