-- ==== Sys2Proof/Machine/Control.lean ====
section
/-! DEFINITION. BEQ and JALR (43_control_transfer.md R110 to R114). No transfer checks its target (R114). -/

namespace Sys2Proof.Machine

/-- BEQ (R111): relative to the following instruction. -/
def execBeq (ra rb : Reg) (simm : Word) (s : State) : Result :=
  s.finish (.ok
    { dest := none
      store := none
      nextPc := if s.regsEqual ra rb then s.branchTarget simm else s.seqPc })

/-- JALR (R112): the target is the value of `ra` before the link is written; `simm` is ignored (R60,
decision D10, log entry 12). -/
def execJalr (ra rb : Reg) (_simm : Word) (s : State) : Result :=
  s.finish (.ok { dest := some (rb, s.seqPc), store := none, nextPc := s.reg ra })

end Sys2Proof.Machine
end

