-- ==== Sys2Proof/Machine/LoadStore.lean ====
section
/-! DEFINITION. LW and SW (42_load_store.md R100 to R104). -/

namespace Sys2Proof.Machine

/-- LW (R100): the bounds test and the access are made whatever the destination is, r0 included (R104). -/
def execLw (ra rb : Reg) (simm : Word) (s : State) : Result :=
  s.finish ((memRead .load (s.effAddr ra simm) s).map fun v =>
    { dest := some (rb, v), store := none, nextPc := s.seqPc })

/-- SW (R101): no register is written. -/
def execSw (ra rb : Reg) (simm : Word) (s : State) : Result :=
  s.finish ((memWrite (s.effAddr ra simm) (s.reg rb) s).map fun st =>
    { dest := none, store := some st, nextPc := s.seqPc })

end Sys2Proof.Machine
end

