-- ==== Sys2Proof/Machine/Dispatch.lean ====
section
/-! DEFINITION. Dispatch of a decoded instruction to its meaning (R72), one arm per constructor. -/

namespace Sys2Proof.Machine

/-- Execution and commit of one decoded instruction (R70, R72). -/
def exec (i : Instr) (s : State) : Host.Outcome State Fault Refusal :=
  match i with
  | .add ra rb rc => Sys2Proof.Machine.execAdd ra rb rc s
  | .addi ra rb simm => Sys2Proof.Machine.execAddi ra rb simm s
  | .nand ra rb rc => Sys2Proof.Machine.execNand ra rb rc s
  | .lui ra imm => Sys2Proof.Machine.execLui ra imm s
  | .lw ra rb simm => Sys2Proof.Machine.execLw ra rb simm s
  | .sw ra rb simm => Sys2Proof.Machine.execSw ra rb simm s
  | .beq ra rb simm => Sys2Proof.Machine.execBeq ra rb simm s
  | .jalr ra rb simm => Sys2Proof.Machine.execJalr ra rb simm s

end Sys2Proof.Machine
end

