-- ==== Sys2Proof/Machine/Step.lean ====
section
/-! DEFINITION. The step of R70: fetch, decode, execute, commit; and the state in which a given word is the
next one fetched. -/

namespace Sys2Proof.Machine

/-- `step(s)` of R70. A fetch fault ends the step at once (R71). -/
def step (s : State) : Host.Outcome State Fault Refusal :=
  match fetch s with
  | .error f => .fault f
  | .ok w => exec (decode w) s

/-- `s` with the word of an opcode-table row as its next instruction: stored at `pc`, or at address 0, the
only start address (R24), with `pc` there, when `pc` lies outside the memory array (log entry 5). -/
def State.withFetchWord (s : State) (nbits w : Nat) : State :=
  let a : Word := if s.inBounds s.pc then s.pc else 0#16
  { s with pc := a, mem := s.mem.put a.toNat (tableWord nbits w) }

end Sys2Proof.Machine
end

