-- ==== Sys2Proof/Machine/HostPort.lean ====
section
/-! DEFINITION. What the host may do with the core: create it with a loaded memory image (R24, R141, R146),
step it (R81), run it (R82), inspect it (R83); and the end of a run by convention (R79, R85). The host has no
other write access (R84). -/

namespace Sys2Proof.Machine

/-- The memory array filled from an image, word by word (R146). -/
def Memory.ofImage (image : Nat → Word) : Nat → Memory
  | 0 => []
  | n + 1 => (Memory.ofImage image n).put n (image n)

/-- The state at creation (R24): `REG_RESET`, `MEM_INIT` and `MEM_SIZE` are arguments, `pc = 0` and
`steps = 0` are given. Of the image only the words below `MEM_SIZE` exist. -/
def State.create (c : Config) (regReset : RegFile) (memInit : Nat → Word) : State where
  config := c
  regs := regReset
  pc := 0#16
  mem := Memory.ofImage memInit c.memSize
  steps := 0

/-- What the host reads of a state (R83). -/
structure Inspection where
  pc : Word
  /-- r0 to r7, in order. -/
  registers : List Word
  /-- The words at 0 to `MEM_SIZE - 1`, in order. -/
  memory : List Word
  steps : Nat
  deriving DecidableEq, Repr

/-- Read access to pc, all eight registers, the full memory and the step counter (R83). -/
def State.inspect (s : State) : Inspection where
  pc := s.pc
  registers := [.r0, .r1, .r2, .r3, .r4, .r5, .r6, .r7].map s.reg
  memory := (List.range s.config.memSize).map s.mem.wordAt
  steps := s.steps

/-- The state the host finds after asking for one step: the next state, or the unchanged state when the
step did not commit (R81, R122, R127). -/
def State.afterStep (s : State) : State :=
  match step s with
  | .next t => t
  | .fault _ => s
  | .refused _ => s

/-- How a run comes back to the host. -/
inductive RunEnd where
  /-- The step limit was reached in this state (R82 b). -/
  | limit (s : State)
  /-- A step faulted; the state is the one the last committed step left (R82 a). -/
  | faulted (f : Fault) (s : State)
  /-- A step was refused; no step of this core is (R58, R78). -/
  | refused (r : Refusal) (s : State)
  deriving DecidableEq, Repr

/-- `run(max_steps)` with a limit: steps one after another until a fault or the limit (R82). -/
def runSteps : Nat → State → RunEnd
  | 0, s => .limit s
  | n + 1, s =>
    match step s with
    | .next t => runSteps n t
    | .fault f => .faulted f s
    | .refused r => .refused r s

/-- What `run` may come back with: with a limit the end of that many steps, without one only the fault that
some number of steps leads to; with no limit and no fault it does not return (R82). -/
def RunReturns : Option Nat → State → RunEnd → Prop
  | some n, s, e => runSteps n s = e
  | none, s, e => ∃ n f t, runSteps n s = .faulted f t ∧ e = .faulted f t

/-- The state is parked: its next instruction is a taken BEQ to itself (R85; log entry 18). -/
def State.parked (s : State) : Bool :=
  s.inBounds s.pc &&
    match decode (s.word s.pc) with
    | .beq ra rb simm => s.regsEqual ra rb && decide (simm.toInt = -1)
    | .add _ _ _ => false
    | .addi _ _ _ => false
    | .nand _ _ _ => false
    | .lui _ _ => false
    | .lw _ _ _ => false
    | .sw _ _ _ => false
    | .jalr _ _ _ => false

end Sys2Proof.Machine
end

