-- ==== Sys2Proof/Safety.lean ====
section
/-! DEFINITION. What counts as a safe run, and the vocabulary claims are written in: which register and which
memory word an instruction names (R14, R32), and what a state transition leaves unchanged. -/

namespace Sys2Proof.Machine

/-- The next state of an outcome, if it is one. -/
def nextOf : Result → Option State
  | .next t => some t
  | .fault _ => none
  | .refused _ => none

/-- The fault of an outcome, if it is one. -/
def faultOf : Result → Option Fault
  | .next _ => none
  | .fault f => some f
  | .refused _ => none

/-- `n` steps from `s` commit, none of them faulting (R136). -/
def SafeRun (n : Nat) (s : State) : Prop := ∃ t, runSteps n s = .limit t

/-- The register an instruction writes, r0 included (table of R14). -/
def destination : Instr → Option Reg
  | .add _ _ rc => some rc
  | .addi _ rb _ => some rb
  | .nand _ _ rc => some rc
  | .lui ra _ => some ra
  | .lw _ rb _ => some rb
  | .sw _ _ _ => none
  | .beq _ _ _ => none
  | .jalr _ rb _ => some rb

/-- The same instruction with another destination register (table of R14). -/
def withDestination (r : Reg) : Instr → Instr
  | .add ra rb _ => .add ra rb r
  | .addi ra _ simm => .addi ra r simm
  | .nand ra rb _ => .nand ra rb r
  | .lui _ imm => .lui r imm
  | .lw ra _ simm => .lw ra r simm
  | .sw ra rb simm => .sw ra rb simm
  | .beq ra rb simm => .beq ra rb simm
  | .jalr ra _ simm => .jalr ra r simm

/-- The address of the data access an instruction makes and its kind, if it makes one (R32, R102). -/
def dataAccess (i : Instr) (s : State) : Option (AccessKind × Word) :=
  match i with
  | .add _ _ _ => none
  | .addi _ _ _ => none
  | .nand _ _ _ => none
  | .lui _ _ => none
  | .lw ra _ simm => some (.load, s.effAddr ra simm)
  | .sw ra _ simm => some (.store, s.effAddr ra simm)
  | .beq _ _ _ => none
  | .jalr _ _ _ => none

/-- The address an instruction stores to, if it stores (R101, R102). -/
def storeAddr (i : Instr) (s : State) : Option Word :=
  match i with
  | .add _ _ _ => none
  | .addi _ _ _ => none
  | .nand _ _ _ => none
  | .lui _ _ => none
  | .lw _ _ _ => none
  | .sw ra _ simm => some (s.effAddr ra simm)
  | .beq _ _ _ => none
  | .jalr _ _ _ => none

/-- The instruction is not one that can leave the sequence, BEQ or JALR (R113). -/
def sequential : Instr → Bool
  | .add _ _ _ => true
  | .addi _ _ _ => true
  | .nand _ _ _ => true
  | .lui _ _ => true
  | .lw _ _ _ => true
  | .sw _ _ _ => true
  | .beq _ _ _ => false
  | .jalr _ _ _ => false

/-- The instruction at `pc`, meaningful where `pc` is inside the array (R71, R72). -/
def State.current (s : State) : Instr := decode (s.word s.pc)

/-- Every access the next step makes is inside the array: its fetch, and its load or store if it makes one
(R136). -/
def State.accessesInBounds (s : State) : Prop :=
  s.inBounds s.pc = true ∧ ∀ kind a, dataAccess s.current s = some (kind, a) → s.inBounds a = true

/-- The next step stores to word address `a` (R101). -/
def State.storesTo (s : State) (a : Nat) : Prop :=
  s.inBounds s.pc = true ∧ ∃ ea, storeAddr s.current s = some ea ∧ ea.toNat = a

/-- None of the first `n` steps from `s` stores to word address `a`. -/
def NoStoreTo (a n : Nat) (s : State) : Prop :=
  ∀ k, k < n → ∀ u, runSteps k s = .limit u → ¬ u.storesTo a

/-- Every register but `r` reads as before. -/
def KeepsRegsBut (r : Reg) (s t : State) : Prop := ∀ q, q ≠ r → t.reg q = s.reg q

/-- Every register reads as before. -/
def KeepsRegs (s t : State) : Prop := ∀ q, t.reg q = s.reg q

/-- Every memory word reads as before. -/
def KeepsMemory (s t : State) : Prop := ∀ a, t.mem.wordAt a = s.mem.wordAt a

/-- Every memory word but the one at `b` reads as before. -/
def KeepsMemoryBut (b : Nat) (s t : State) : Prop := ∀ a, a ≠ b → t.mem.wordAt a = s.mem.wordAt a

/-- The step counter has advanced by one and the configuration is the same (R20, R6). -/
def Counts (s t : State) : Prop := t.steps = s.steps + 1 ∧ t.config = s.config

/-- The registers an instruction reads (table of R14). -/
def sources : Instr → List Reg
  | .add ra rb _ => [ra, rb]
  | .addi ra _ _ => [ra]
  | .nand ra rb _ => [ra, rb]
  | .lui _ _ => []
  | .lw ra _ _ => [ra]
  | .sw ra rb _ => [ra, rb]
  | .beq ra rb _ => [ra, rb]
  | .jalr ra _ _ => [ra]

/-- The opcode number of an instruction (R53). -/
def opcodeNum : Instr → Nat
  | .add _ _ _ => 0
  | .addi _ _ _ => 1
  | .nand _ _ _ => 2
  | .lui _ _ => 3
  | .lw _ _ _ => 4
  | .sw _ _ _ => 5
  | .beq _ _ _ => 6
  | .jalr _ _ _ => 7

/-- The word decodes to the RRR instruction `mk` with the registers numbered by bits [12:10], [9:7] and
[2:0] (R52, R54). -/
def ReadsRRR (w : Word) (mk : Reg → Reg → Reg → Instr) : Prop :=
  ∃ ra rb rc, decode w = mk ra rb rc ∧
    ra.num = w.toNat / 1024 % 8 ∧ rb.num = w.toNat / 128 % 8 ∧ rc.num = w.toNat % 8

/-- The word decodes to the RRI instruction `mk` with the registers numbered by bits [12:10] and [9:7] and
the immediate `sext_16(w[6:0])` by R9's formula (R52, R54, R55). -/
def ReadsRRI (w : Word) (mk : Reg → Reg → Word → Instr) : Prop :=
  ∃ ra rb simm, decode w = mk ra rb simm ∧
    ra.num = w.toNat / 1024 % 8 ∧ rb.num = w.toNat / 128 % 8 ∧
    simm.toNat = if w.toNat % 128 < 64 then w.toNat % 128 else w.toNat % 128 + 0xFF80

/-- The word decodes to the RI instruction `mk` with the register numbered by bits [12:10] and the immediate
in bits [9:0] (R52, R54, R56). -/
def ReadsRI (w : Word) (mk : Reg → BitVec 10 → Instr) : Prop :=
  ∃ ra imm, decode w = mk ra imm ∧ ra.num = w.toNat / 1024 % 8 ∧ imm.toNat = w.toNat % 1024

end Sys2Proof.Machine
end

