-- ==== Sys2Proof/Certificates/Slice0/Obligations.lean ====
section
/-! DEFINITION. The statements for the provers, each a claim about the machine for every state, hence for every
`MEM_SIZE`, every register contents and every memory image (R7).

Where a statement rests on a decision of the spec (D<n> of 92_eei_decisions.md) or on a choice of this model, its
docstring names it and the log entry. -/

open Sys2Proof Sys2Proof.Machine

/-! ### Encoding -/

/-- R53, R57: every word decodes to the instruction of the one opcode-map row whose match and mask it meets,
with every field read from its bits. -/
def Obligations.DecodeFollowsTheOpcodeMap : Prop :=
  ∀ w : Word,
    (w &&& 0xE000#16 = 0x0000#16 → ReadsRRR w .add) ∧
    (w &&& 0xE000#16 = 0x2000#16 → ReadsRRI w .addi) ∧
    (w &&& 0xE000#16 = 0x4000#16 → ReadsRRR w .nand) ∧
    (w &&& 0xE000#16 = 0x6000#16 → ReadsRI w .lui) ∧
    (w &&& 0xE000#16 = 0x8000#16 → ReadsRRI w .lw) ∧
    (w &&& 0xE000#16 = 0xA000#16 → ReadsRRI w .sw) ∧
    (w &&& 0xE000#16 = 0xC000#16 → ReadsRRI w .beq) ∧
    (w &&& 0xE000#16 = 0xE000#16 → ReadsRRI w .jalr)

/-- R51: the number in bits [15:13] is the opcode of the instruction decoded, whatever the other bits are. -/
def Obligations.OpcodeAloneSelectsTheInstruction : Prop :=
  ∀ w : Word, opcodeNum (decode w) = w.toNat / 8192

/-- R59: two ADD or two NAND words that differ only in bits [6:3] are the same instruction; `0x0503` and
`0x057B` are both ADD with `ra = 1`, `rb = 2`, `rc = 3`. -/
def Obligations.UnusedBitsOfAddAndNandAreIgnored : Prop :=
  (∀ w v : Word, (w &&& 0xE000#16 = 0x0000#16 ∨ w &&& 0xE000#16 = 0x4000#16) →
    w &&& 0xFF87#16 = v &&& 0xFF87#16 → decode w = decode v) ∧
  decode 0x0503#16 = .add .r1 .r2 .r3 ∧ decode 0x057B#16 = .add .r1 .r2 .r3

/-- The round trip of R61 (decision D11, log entry 13; source property S9): decoding an encoded well-formed
instruction gives it back, with every operand at every value. -/
def Obligations.DecodeOfEncodeIsTheInstruction : Prop :=
  ∀ i : Instr, i.wf = true → decode (encode i) = i

/-- R61 (decision D11, log entry 13): encoding a decoded word gives it back when the unused bits [6:3] of an
ADD or NAND word are zero; every other word comes back without a condition, JALR's bits [6:0] included. -/
def Obligations.EncodeOfDecodeIsTheWord : Prop :=
  ∀ w : Word,
    ((w &&& 0xE000#16 = 0x0000#16 ∨ w &&& 0xE000#16 = 0x4000#16) → w &&& 0x0078#16 = 0#16) →
    encode (decode w) = w

/-- R55 and R57: the decoder delivers well-formed instructions only, every `simm` in `-64..63`. That the term
holds the delivered 16-bit value is this model's choice (log entry 20). -/
def Obligations.DecodedInstructionsAreWellFormed : Prop :=
  ∀ w : Word, (decode w).wf = true

/-- Words of 95_test_vectors.md part 2.1 (V2, V4, V5, V7, V8, V9, V10, V11, V13). -/
def Obligations.SampleWordsDecodeAsTheSpecLists : Prop :=
  decode 0x0503#16 = .add .r1 .r2 .r3 ∧
  decode 0x24FF#16 = .addi .r1 .r1 (-1#16) ∧
  decode 0x2040#16 = .addi .r0 .r0 (-64#16) ∧
  decode 0x5FFF#16 = .nand .r7 .r7 .r7 ∧
  decode 0x67FF#16 = .lui .r1 0x3FF#10 ∧
  decode 0x8981#16 = .lw .r2 .r3 1#16 ∧
  decode 0xAA7F#16 = .sw .r2 .r4 (-1#16) ∧
  decode 0xC07F#16 = .beq .r0 .r0 (-1#16) ∧
  decode 0xFFFF#16 = .jalr .r7 .r7 (-1#16)

/-! ### The step -/

/-- R70 to R72: where the fetch at `pc` is inside the array, the step is the execution of the instruction
decoded from the word there, with nothing around it (the commit is part of `exec`); where `pc >= MEM_SIZE` it is
the fetch fault. That the last word is fetchable is decision D5 (log entry 8). -/
def Obligations.StepRunsTheDecodedInstruction : Prop :=
  ∀ s : State,
    (s.pc.toNat < s.config.memSize → step s = exec (decode (s.mem.wordAt s.pc.toNat)) s) ∧
    (s.config.memSize ≤ s.pc.toNat → step s = .fault (.memoryOutOfBounds .fetch s.pc))

/-- R78: a step commits or faults with `MemoryOutOfBounds`; no third outcome exists. -/
def Obligations.EveryStepCommitsOrFaultsOutOfBounds : Prop :=
  ∀ s : State, (∃ t, step s = .next t) ∨ ∃ kind a, step s = .fault (.memoryOutOfBounds kind a)

/-- R120, R125: the fetch faults exactly at `pc >= MEM_SIZE`; else LW and SW fault exactly at an effective
address at or above `MEM_SIZE`, with that kind and address; a step with every access inside the array commits,
and with `MEM_SIZE = 65536` every step does. Rests on decisions D3, D5 and D9 (log entries 7, 8, 11). -/
def Obligations.StepFaultsExactlyWhenAnAccessIsOutOfBounds : Prop :=
  ∀ s : State,
    (s.config.memSize ≤ s.pc.toNat → step s = .fault (.memoryOutOfBounds .fetch s.pc)) ∧
    (s.pc.toNat < s.config.memSize → ∀ kind a, dataAccess s.current s = some (kind, a) →
      s.config.memSize ≤ a.toNat → step s = .fault (.memoryOutOfBounds kind a)) ∧
    (s.accessesInBounds → ∃ t, step s = .next t) ∧
    (s.config.memSize = 65536 → ∃ t, step s = .next t)

/-! ### The instructions: result, completion and frame -/

/-- R90, whole: encoding, sum modulo 2^16, sequential pc, nothing else changed. The rule writes `pc +16 1`;
that the sum wraps at `0xFFFF` is also decision D2 (log entry 6). -/
def Obligations.AddWritesTheSumModulo65536 : Prop :=
  (∀ w : Word, w &&& 0xE000#16 = 0x0000#16 → ReadsRRR w .add) ∧
  ∀ (ra rb rc : Reg) (s : State), ∃ t, exec (.add ra rb rc) s = .next t ∧
    (t.reg rc).toNat = (if rc = .r0 then 0 else ((s.reg ra).toNat + (s.reg rb).toNat) % 65536) ∧
    t.pc.toNat = (s.pc.toNat + 1) % 65536 ∧
    KeepsRegsBut rc s t ∧ KeepsMemory s t ∧ Counts s t

/-- R91, whole: encoding, sum with the signed immediate modulo 2^16, sequential pc, nothing else changed (pc wrap:
decision D2, log entry 6). -/
def Obligations.AddiAddsTheSignedImmediateModulo65536 : Prop :=
  (∀ w : Word, w &&& 0xE000#16 = 0x2000#16 → ReadsRRI w .addi) ∧
  ∀ (ra rb : Reg) (simm : Word) (s : State), ∃ t, exec (.addi ra rb simm) s = .next t ∧
    ((t.reg rb).toNat : Int) = (if rb = .r0 then 0 else ((s.reg ra).toNat + simm.toInt) % 65536) ∧
    t.pc.toNat = (s.pc.toNat + 1) % 65536 ∧
    KeepsRegsBut rb s t ∧ KeepsMemory s t ∧ Counts s t

/-- R92, whole: encoding, `0xFFFF - (x[ra] AND x[rb])`, sequential pc, nothing else changed (pc wrap: decision
D2, log entry 6). -/
def Obligations.NandWritesTheComplementOfTheAnd : Prop :=
  (∀ w : Word, w &&& 0xE000#16 = 0x4000#16 → ReadsRRR w .nand) ∧
  ∀ (ra rb rc : Reg) (s : State), ∃ t, exec (.nand ra rb rc) s = .next t ∧
    (t.reg rc).toNat = (if rc = .r0 then 0 else 65535 - ((s.reg ra).toNat &&& (s.reg rb).toNat)) ∧
    t.pc.toNat = (s.pc.toNat + 1) % 65536 ∧
    KeepsRegsBut rc s t ∧ KeepsMemory s t ∧ Counts s t

/-- R93, whole: encoding, `imm * 64` whatever the register held, the building of any 16-bit constant by LUI and
ADDI, sequential pc, nothing else changed (pc wrap: decision D2, log entry 6). -/
def Obligations.LuiLoadsTheUpperTenBitsAndClearsTheLowerSix : Prop :=
  (∀ w : Word, w &&& 0xE000#16 = 0x6000#16 → ReadsRI w .lui) ∧
  (∀ (ra : Reg) (imm : BitVec 10) (s : State), ∃ t, exec (.lui ra imm) s = .next t ∧
    (t.reg ra).toNat = (if ra = .r0 then 0 else imm.toNat * 64) ∧
    t.pc.toNat = (s.pc.toNat + 1) % 65536 ∧
    KeepsRegsBut ra s t ∧ KeepsMemory s t ∧ Counts s t) ∧
  ∀ (ra : Reg) (k : Word) (s : State), ra ≠ .r0 →
    ∃ t u, exec (.lui ra (k.extractLsb' 6 10)) s = .next t ∧
      exec (.addi ra ra ((k.extractLsb' 0 6).setWidth 16)) t = .next u ∧ u.reg ra = k

/-- R102 (decision D3, log entry 7): the effective address is the base plus the signed offset, modulo 2^16. -/
def Obligations.EffectiveAddressIsBasePlusOffsetModulo65536 : Prop :=
  ∀ (ra : Reg) (simm : Word) (s : State),
    ((s.effAddr ra simm).toNat : Int) = ((s.reg ra).toNat + simm.toInt) % 65536

/-- R100, R102, R104: inside the array LW loads the whole word and changes nothing else; outside it faults,
whatever the destination. The address wrap is decision D3, the pc wrap D2, the fault's payload D9 (log entries 7,
6, 11). -/
def Obligations.LwLoadsTheWordOrFaults : Prop :=
  ∀ (ra rb : Reg) (simm : Word) (s : State),
    ((s.effAddr ra simm).toNat < s.config.memSize → ∃ t, exec (.lw ra rb simm) s = .next t ∧
      t.reg rb = (if rb = .r0 then 0#16 else s.mem.wordAt (s.effAddr ra simm).toNat) ∧
      t.pc.toNat = (s.pc.toNat + 1) % 65536 ∧
      KeepsRegsBut rb s t ∧ KeepsMemory s t ∧ Counts s t) ∧
    (s.config.memSize ≤ (s.effAddr ra simm).toNat →
      exec (.lw ra rb simm) s = .fault (.memoryOutOfBounds .load (s.effAddr ra simm)))

/-- R101, R34, R102, R104: inside the array SW replaces the word at the effective address by the register and
changes nothing else; outside it faults. The address wrap is decision D3, the pc wrap D2, the fault's payload D9
(log entries 7, 6, 11). -/
def Obligations.SwStoresTheRegisterOrFaults : Prop :=
  ∀ (ra rb : Reg) (simm : Word) (s : State),
    ((s.effAddr ra simm).toNat < s.config.memSize → ∃ t, exec (.sw ra rb simm) s = .next t ∧
      t.mem.wordAt (s.effAddr ra simm).toNat = s.reg rb ∧
      KeepsMemoryBut (s.effAddr ra simm).toNat s t ∧
      t.pc.toNat = (s.pc.toNat + 1) % 65536 ∧ KeepsRegs s t ∧ Counts s t) ∧
    (s.config.memSize ≤ (s.effAddr ra simm).toNat →
      exec (.sw ra rb simm) s = .fault (.memoryOutOfBounds .store (s.effAddr ra simm)))

/-- R111: BEQ goes to `pc + 1 + simm` when the registers are equal, else to `pc + 1`, and changes nothing else.
The wrap modulo 2^16 is decision D2 (log entry 6). -/
def Obligations.BeqBranchesRelativeToTheNextInstruction : Prop :=
  ∀ (ra rb : Reg) (simm : Word) (s : State), ∃ t, exec (.beq ra rb simm) s = .next t ∧
    (t.pc.toNat : Int) =
      (if s.reg ra = s.reg rb then (s.pc.toNat : Int) + 1 + simm.toInt else s.pc.toNat + 1) % 65536 ∧
    KeepsRegs s t ∧ KeepsMemory s t ∧ Counts s t

/-- R112: JALR goes to the value `ra` held before the step, links `pc + 1` in `rb`, also when both are the same
register, and changes nothing else. The link's wrap is decision D2 (log entry 6), the ignored immediate D10 (log
entry 12). -/
def Obligations.JalrJumpsAndLinks : Prop :=
  ∀ (ra rb : Reg) (simm : Word) (s : State), ∃ t, exec (.jalr ra rb simm) s = .next t ∧
    t.pc = s.reg ra ∧
    (t.reg rb).toNat = (if rb = .r0 then 0 else (s.pc.toNat + 1) % 65536) ∧
    KeepsRegsBut rb s t ∧ KeepsMemory s t ∧ Counts s t

/-- R60 (decision D10, log entry 12): two JALR words that differ only in bits [6:0] do the same. -/
def Obligations.JalrIgnoresItsImmediateBits : Prop :=
  ∀ (w v : Word) (s : State), w &&& 0xE000#16 = 0xE000#16 → w &&& 0xFF80#16 = v &&& 0xFF80#16 →
    exec (decode w) s = exec (decode v) s

/-- R76: with the destination among the sources, the old value is used: ADD doubles, LW addresses, JALR jumps
(the same-register reading of JALR is the source's own, S6). The wraps are R94 and decision D2 (log entry 6). -/
def Obligations.DestinationMayBeASource : Prop :=
  ∀ (r : Reg) (simm : Word) (s : State), r ≠ .r0 →
    (∃ t, exec (.add r r r) s = .next t ∧ (t.reg r).toNat = 2 * (s.reg r).toNat % 65536) ∧
    ((s.reg r).toNat < s.config.memSize →
      ∃ t, exec (.lw r r 0#16) s = .next t ∧ t.reg r = s.mem.wordAt (s.reg r).toNat) ∧
    ∃ t, exec (.jalr r r simm) s = .next t ∧ t.pc = s.reg r ∧ t.reg r = s.pc + 1#16

/-! ### Rules about the whole machine -/

/-- R13: r0 reads zero after any step, and an instruction that targets r0 is executed in full: it faults when the
same instruction with another destination faults, and else changes no register and has the same pc, memory and
step counter after it. -/
def Obligations.WritesToRegisterZeroAreDiscarded : Prop :=
  (∀ s t : State, step s = .next t → t.reg .r0 = 0#16) ∧
  ∀ (i : Instr) (rd : Reg) (s : State), destination i = some rd →
    (∀ f, exec i s = .fault f → exec (withDestination .r0 i) s = .fault f) ∧
    ∀ t, exec i s = .next t → ∃ z, exec (withDestination .r0 i) s = .next z ∧
      KeepsRegs s z ∧ z.pc = t.pc ∧ z.mem = t.mem ∧ z.steps = t.steps ∧ z.config = t.config

/-- R14: a register that a step changes is the destination its instruction names, and r0 never changes. -/
def Obligations.OnlyTheDestinationRegisterChanges : Prop :=
  ∀ (s t : State) (r : Reg), step s = .next t → t.reg r ≠ s.reg r →
    destination s.current = some r ∧ r ≠ .r0

/-- R32, R34: a memory word that a step changes is the one an SW addresses, inside the array. -/
def Obligations.OnlyAStoreChangesMemoryAndOnlyItsWord : Prop :=
  ∀ (s t : State) (a : Nat), step s = .next t → t.mem.wordAt a ≠ s.mem.wordAt a →
    ∃ ra rb simm, s.current = .sw ra rb simm ∧ (s.effAddr ra simm).toNat = a ∧ a < s.config.memSize ∧
      t.mem.wordAt a = s.reg rb

/-- R113 (the wrap of `pc + 1` is decision D2, log entry 6): a step whose next pc is not `pc + 1` is a JALR or a
BEQ whose registers are equal. -/
def Obligations.OnlyBeqAndJalrLeaveTheSequence : Prop :=
  ∀ s t : State, step s = .next t → t.pc ≠ s.pc + 1#16 →
    (∃ ra rb simm, s.current = .beq ra rb simm ∧ s.reg ra = s.reg rb) ∨
    ∃ ra rb simm, s.current = .jalr ra rb simm

/-- R73, R14: what an instruction does depends only on the registers it reads, on `pc`, and for LW on the word
addressed (and on `MEM_SIZE`): not on other registers, other memory words or the step counter. -/
def Obligations.ExecutionDependsOnlyOnWhatItReads : Prop :=
  ∀ (i : Instr) (s v : State), v.config = s.config → v.pc = s.pc →
    (∀ r ∈ sources i, v.reg r = s.reg r) →
    (∀ ra rb simm, i = .lw ra rb simm → v.word (s.effAddr ra simm) = s.word (s.effAddr ra simm)) →
    (∀ f, exec i s = .fault f → exec i v = .fault f) ∧
    ∀ t, exec i s = .next t → ∃ u, exec i v = .next u ∧ u.pc = t.pc ∧
      (∀ r, destination i = some r → u.reg r = t.reg r) ∧
      storeAddr i v = storeAddr i s ∧ ∀ a, storeAddr i s = some a → u.word a = t.word a

/-- R20 (decisions D7, D8; log entries 9, 10): `n` committed steps advance the counter by `n`, and no step
changes `MEM_SIZE`. -/
def Obligations.CommittedStepsAreCounted : Prop :=
  ∀ (n : Nat) (s t : State), runSteps n s = .limit t → t.steps = s.steps + n ∧ t.config = s.config

/-- R20, R131: no program's behaviour depends on the step counter: a run from the same state with another
counter value ends alike but for the counter. -/
def Obligations.NoRunDependsOnTheStepCounter : Prop :=
  ∀ (k n : Nat) (s : State),
    (∀ t, runSteps k s = .limit t →
      runSteps k { s with steps := n } = .limit { t with steps := n + k }) ∧
    ∀ f t, runSteps k s = .faulted f t →
      ∃ m, runSteps k { s with steps := n } = .faulted f { t with steps := m }

/-- R122, R127 (decision D8, log entry 10): after a fault the host finds the state unchanged, and however often
it asks for another step the same fault comes back. -/
def Obligations.AFaultRepeatsForever : Prop :=
  ∀ (s : State) (f : Fault), step s = .fault f →
    ∀ n : Nat, State.afterStep^[n] s = s ∧ step (State.afterStep^[n] s) = .fault f

/-- R31: when `MEM_SIZE = 65536` no run faults. The wraps that keep every address inside are decisions D2 and D3,
the fetch of the last word D5 (log entries 6, 7, 8). -/
def Obligations.NoFaultWhenMemoryCoversEveryAddress : Prop :=
  ∀ (n : Nat) (s : State), s.config.memSize = 65536 → SafeRun n s

/-- R136, R147: a run commits all its steps exactly when every fetch, load and store it makes is inside the
array. Rests on decisions D3 and D5 (log entries 7, 8). -/
def Obligations.SafeRunIffEveryAccessIsInBounds : Prop :=
  ∀ (n : Nat) (s : State),
    SafeRun n s ↔ ∀ k, k < n → ∀ u, runSteps k s = .limit u → u.accessesInBounds

/-- R82 (decision D18, log entry 18): `run` is repeated `step`. No steps leave the state alone; a first step that
commits is followed by the rest of the run from its state, one that faults ends the run in the state before it. A
run that reaches its limit ends where that many `step` calls of the host end; a run comes back with a fault exactly
when some smaller number of committed steps leads to the state it returns and the step from there is that fault;
without a limit it comes back with exactly such faults. Runs compose. -/
def Obligations.RunIsRepeatedStep : Prop :=
  ∀ (m n : Nat) (s : State),
    runSteps 0 s = .limit s ∧
    (∀ t, step s = .next t → runSteps (n + 1) s = runSteps n t) ∧
    (∀ f, step s = .fault f → runSteps (n + 1) s = .faulted f s) ∧
    (∀ t, runSteps n s = .limit t → State.afterStep^[n] s = t) ∧
    (∀ f t, runSteps n s = .faulted f t ↔ ∃ k, k < n ∧ runSteps k s = .limit t ∧ step t = .fault f) ∧
    (∀ e, RunReturns none s e ↔
      ∃ k f t, runSteps k s = .limit t ∧ step t = .fault f ∧ e = .faulted f t) ∧
    (∀ t, runSteps m s = .limit t → runSteps (m + n) s = runSteps n t) ∧
    ∀ f t, runSteps m s = .faulted f t → runSteps (m + n) s = .faulted f t

/-- R79, R85 (decisions D14, D18; log entry 18): a parked machine keeps executing its branch to itself, each step
changing the counter only, and a run without a limit does not return. -/
def Obligations.AParkedStateExecutesForever : Prop :=
  ∀ s : State, s.parked = true →
    (∀ n : Nat, runSteps n s = .limit { s with steps := s.steps + n }) ∧
    ∀ e, ¬ RunReturns none s e

/-- R44 (decision D16, log entry 15): an SW to the address of the next instruction is what the very next fetch
sees. The next instruction is at `pc + 1`, whose wrap at `0xFFFF` to address 0 is decision D2 (log entry 6); the
address wrap of SW is D3 and the fetch of the last word D5 (log entries 7, 8). -/
def Obligations.AStoreIsSeenByTheNextFetch : Prop :=
  ∀ (ra rb : Reg) (simm : Word) (s : State),
    s.inBounds (s.effAddr ra simm) = true → s.effAddr ra simm = s.pc + 1#16 →
    ∃ t, exec (.sw ra rb simm) s = .next t ∧ step t = exec (decode (s.reg rb)) t

/-- R33: a read inside the array gives the word of the latest SW to that address, or of the memory image when no
SW has written it; outside it raises the fault. The fault's kind and address are decision D9 (log entry 11); that a
fetch sees the latest SW too is D16 (log entry 15); the address an SW writes wraps by D3 (log entry 7). -/
def Obligations.MemReadReturnsTheLatestStore : Prop :=
  (∀ (n : Nat) (c : Config) (regs : RegFile) (image : Nat → Word) (t : State) (kind : AccessKind) (a : Word),
    a.toNat < c.memSize → runSteps n (State.create c regs image) = .limit t →
    NoStoreTo a.toNat n (State.create c regs image) → memRead kind a t = .ok (image a.toNat)) ∧
  (∀ (n : Nat) (s v t : State) (ra rb : Reg) (simm : Word) (kind : AccessKind),
    s.current = .sw ra rb simm → step s = .next v → runSteps n v = .limit t →
    NoStoreTo (s.effAddr ra simm).toNat n v → memRead kind (s.effAddr ra simm) t = .ok (s.reg rb)) ∧
  ∀ (kind : AccessKind) (a : Word) (s : State), s.config.memSize ≤ a.toNat →
    memRead kind a s = .error (.memoryOutOfBounds kind a)

/-- R114 (wraps: decision D2, log entry 6): JALR, BEQ and the sequential advance commit without a check of the
target, and the fetch of the next step faults when it lies outside the array. -/
def Obligations.ATargetOutsideMemoryFaultsAtTheNextFetch : Prop :=
  (∀ (ra rb : Reg) (simm : Word) (s : State), s.config.memSize ≤ (s.reg ra).toNat →
    ∃ t, exec (.jalr ra rb simm) s = .next t ∧ step t = .fault (.memoryOutOfBounds .fetch (s.reg ra))) ∧
  (∀ (ra rb : Reg) (simm : Word) (s : State), s.reg ra = s.reg rb →
    s.config.memSize ≤ (s.branchTarget simm).toNat →
    ∃ t, exec (.beq ra rb simm) s = .next t ∧
      step t = .fault (.memoryOutOfBounds .fetch (s.branchTarget simm))) ∧
  ∀ (i : Instr) (s t : State), sequential i = true → exec i s = .next t →
    s.pc.toNat + 1 = s.config.memSize → s.config.memSize < 65536 →
    step t = .fault (.memoryOutOfBounds .fetch (s.pc + 1#16))

/-- R112, R113: a JALR that links and a later JALR to the link register return to the instruction after the
call, while that register is kept (pc wrap: decision D2, log entry 6). -/
def Obligations.JalrToTheLinkReturnsAfterTheCall : Prop :=
  ∀ (ra rb : Reg) (x y : Word) (s t : State), rb ≠ .r0 → exec (.jalr ra rb x) s = .next t →
    ∀ u : State, u.reg rb = t.reg rb → ∃ v, exec (.jalr rb .r0 y) u = .next v ∧ v.pc = s.pc + 1#16 ∧
      KeepsRegs u v

/-- R95: the operations the core lacks, composed: `NOT a` by NAND, `-a` by NAND and ADDI, `a AND b` by two
NANDs. -/
def Obligations.MissingOperationsAreComposed : Prop :=
  ∀ (a b c : Reg) (s : State), c ≠ .r0 →
    (∃ t u, exec (.nand a a c) s = .next t ∧ (t.reg c).toNat = 65535 - (s.reg a).toNat ∧
      exec (.addi c c 1#16) t = .next u ∧ (u.reg c).toNat = (65536 - (s.reg a).toNat) % 65536) ∧
    ∃ t u, exec (.nand a b c) s = .next t ∧ exec (.nand c c c) t = .next u ∧
      (u.reg c).toNat = (s.reg a).toNat &&& (s.reg b).toNat

/-- R65, with the sequential pc of R90: the NOP idiom, the word `0x0000`, changes nothing but `pc`, which goes to
`pc + 1`, and the step counter. The wrap of `pc + 1` at `0xFFFF` is decision D2 (log entry 6). -/
def Obligations.NopChangesOnlyPcAndSteps : Prop :=
  ∀ s : State, exec (decode 0x0000#16) s = .next { s with pc := s.pc + 1#16, steps := s.steps + 1 }

/-! ### Reset, the host's port, and the invariant -/

/-- R24, R141, R146 (decisions D6, D7, D19): at creation `pc = 0`, r0 is zero, r1 to r7 are `REG_RESET`, memory is
the loaded image, the counter is 0, and the first instruction executed is the word at address 0. -/
def Obligations.CreationLoadsTheImageAndStartsAtZero : Prop :=
  ∀ (c : Config) (regs : RegFile) (image : Nat → Word),
    (State.create c regs image).config = c ∧ (State.create c regs image).pc = 0#16 ∧
    (State.create c regs image).steps = 0 ∧ (State.create c regs image).reg .r0 = 0#16 ∧
    (∀ r, (State.create c regs image).reg r = regs.read r) ∧
    (∀ a, a < c.memSize → (State.create c regs image).mem.wordAt a = image a) ∧
    step (State.create c regs image) = exec (decode (image 0)) (State.create c regs image)

/-- The named reset state is the creation with the values this model chose for what the spec leaves open:
`MEM_SIZE = 65536`, registers zero, an image of zeros (log entries 1, 2, 3). -/
def Obligations.ResetIsTheCreationWithTheChosenParameters : Prop :=
  State.reset = State.create (Config.ofMemSize 65536) RegFile.zero (fun _ => 0#16)

/-- The invariant of the model's memory (log entry 4) holds at the reset state and at every creation. -/
def Obligations.ResetAndCreationAreWellFormed : Prop :=
  State.reset.wf ∧ ∀ c regs image, (State.create c regs image).wf

/-- Every step keeps memory canonical (log entry 4) and inside the array of `MEM_SIZE` words (R22, R34). -/
def Obligations.EveryStepKeepsTheStateWellFormed : Prop :=
  ∀ s t : State, s.wf → step s = .next t → t.wf

/-- The model's placing of an opcode-table word (log entry 5): the very next step runs the instruction the
decoder reads from it, and placing it keeps the registers, the counter, the configuration, every other memory
word, and a `pc` inside the array. -/
def Obligations.ThePlacedWordIsTheNextInstruction : Prop :=
  ∀ (s : State) (nbits w : Nat),
    (∃ i, decodeTableWord nbits w = some i ∧
      step (s.withFetchWord nbits w) = exec i (s.withFetchWord nbits w)) ∧
    KeepsRegs s (s.withFetchWord nbits w) ∧
    KeepsMemoryBut (s.withFetchWord nbits w).pc.toNat s (s.withFetchWord nbits w) ∧
    (s.withFetchWord nbits w).steps = s.steps ∧ (s.withFetchWord nbits w).config = s.config ∧
    (s.inBounds s.pc = true → (s.withFetchWord nbits w).pc = s.pc)

/-- R6 (decision D4; held by this model as the top address, log entry 1): `MEM_SIZE` lies in `1..65536` and every
size in that range is one. -/
def Obligations.MemorySizeRange : Prop :=
  (∀ c : Config, 1 ≤ c.memSize ∧ c.memSize ≤ 65536) ∧
  ∀ n, 1 ≤ n → n ≤ 65536 → (Config.ofMemSize n).memSize = n

/-- R83: the host reads pc, all eight registers (r0 as zero), all `MEM_SIZE` memory words and the step counter. -/
def Obligations.InspectionReadsTheWholeState : Prop :=
  ∀ s : State,
    s.inspect.pc = s.pc ∧ s.inspect.steps = s.steps ∧
    s.inspect.registers.length = 8 ∧ s.inspect.registers[0]? = some 0#16 ∧
    (∀ r : Reg, s.inspect.registers[r.num]? = some (s.reg r)) ∧
    s.inspect.memory.length = s.config.memSize ∧
    ∀ a, a < s.config.memSize → s.inspect.memory[a]? = some (s.mem.wordAt a)
end

