-- ==== Sys2Proof/Laws/Decode.lean ====
section
/-! SUPPORT. The decoder's fields on the encoder's words, and the opcode bits of each format. -/

namespace Sys2Proof

@[simp] theorem Reg.ofBits_toBits (r : Reg) : Reg.ofBits r.toBits = r := by cases r <;> rfl

theorem Reg.num_ofBits (b : BitVec 3) : (Reg.ofBits b).num = b.toNat := by revert b; decide

theorem signExtend_7_toNat (b : BitVec 7) :
    (b.signExtend 16).toNat = if b.toNat < 64 then b.toNat else b.toNat + 0xFF80 := by revert b; decide

theorem raField_num (w : Word) : (raField w).num = w.toNat / 1024 % 8 := by
  simp [raField, Reg.num_ofBits, BitVec.extractLsb'_toNat, Nat.shiftRight_eq_div_pow]

theorem rbField_num (w : Word) : (rbField w).num = w.toNat / 128 % 8 := by
  simp [rbField, Reg.num_ofBits, BitVec.extractLsb'_toNat, Nat.shiftRight_eq_div_pow]

theorem rcField_num (w : Word) : (rcField w).num = w.toNat % 8 := by
  simp [rcField, Reg.num_ofBits, BitVec.extractLsb'_toNat]

theorem immField_toNat (w : Word) : (immField w).toNat = w.toNat % 1024 := by
  simp [immField, BitVec.extractLsb'_toNat]

/-- R9's formula for `sext_16` of the low seven bits. -/
theorem simmField_toNat (w : Word) :
    (simmField w).toNat = if w.toNat % 128 < 64 then w.toNat % 128 else w.toNat % 128 + 0xFF80 := by
  simp [simmField, signExtend_7_toNat, BitVec.extractLsb'_toNat]

/-- The match and mask test of R53 fixes the three opcode bits the decoder looks at. -/
theorem opcode_bits_of_mask {w v : Word} (h : w &&& 0xE000#16 = v) :
    w[15] = v[15] ∧ w[14] = v[14] ∧ w[13] = v[13] := by
  subst h
  simp

/-- Reading a field of a concatenation above its low part reads the high part. -/
theorem extract_high {m n : Nat} (x : BitVec m) (y : BitVec n) (k w : Nat) :
    (x ++ y).extractLsb' (n + k) w = x.extractLsb' k w := by
  ext i hi
  have h1 : ¬ n + k + i < n := by omega
  have h2 : n + k + i - n = k + i := by omega
  simp [BitVec.getElem_extractLsb', BitVec.getLsbD_append, h1, h2]

/-- Reading the whole low part of a concatenation. -/
theorem extract_low {m n : Nat} (x : BitVec m) (y : BitVec n) : (x ++ y).extractLsb' 0 n = y := by
  ext i hi
  simp [BitVec.getElem_extractLsb', BitVec.getLsbD_append, hi]

/-- The fields of a word laid out as RRR (R52). -/
theorem fields_RRR (o a b d : BitVec 3) (z : BitVec 4) :
    (o ++ a ++ b ++ z ++ d : Word).extractLsb' 13 3 = o ∧ (o ++ a ++ b ++ z ++ d : Word).extractLsb' 10 3 = a ∧
    (o ++ a ++ b ++ z ++ d : Word).extractLsb' 7 3 = b ∧ (o ++ a ++ b ++ z ++ d : Word).extractLsb' 0 3 = d :=
  ⟨(extract_high _ d 10 3).trans <| (extract_high _ z 6 3).trans <| (extract_high _ b 3 3).trans <|
      (extract_high o a 0 3).trans BitVec.extractLsb'_eq_self,
    (extract_high _ d 7 3).trans <| (extract_high _ z 3 3).trans <| (extract_high _ b 0 3).trans <| extract_low o a,
    (extract_high _ d 4 3).trans <| (extract_high _ z 0 3).trans <| extract_low _ b,
    extract_low _ d⟩

/-- The fields of a word laid out as RRI (R52). -/
theorem fields_RRI (o a b : BitVec 3) (x : BitVec 7) :
    (o ++ a ++ b ++ x : Word).extractLsb' 13 3 = o ∧ (o ++ a ++ b ++ x : Word).extractLsb' 10 3 = a ∧
    (o ++ a ++ b ++ x : Word).extractLsb' 7 3 = b ∧ (o ++ a ++ b ++ x : Word).extractLsb' 0 7 = x :=
  ⟨(extract_high _ x 6 3).trans <| (extract_high _ b 3 3).trans <|
      (extract_high o a 0 3).trans BitVec.extractLsb'_eq_self,
    (extract_high _ x 3 3).trans <| (extract_high _ b 0 3).trans <| extract_low o a,
    (extract_high _ x 0 3).trans <| extract_low _ b,
    extract_low _ x⟩

/-- The fields of a word laid out as RI (R52). -/
theorem fields_RI (o a : BitVec 3) (x : BitVec 10) :
    (o ++ a ++ x : Word).extractLsb' 13 3 = o ∧ (o ++ a ++ x : Word).extractLsb' 10 3 = a ∧
    (o ++ a ++ x : Word).extractLsb' 0 10 = x :=
  ⟨(extract_high _ x 3 3).trans <| (extract_high o a 0 3).trans BitVec.extractLsb'_eq_self,
    (extract_high _ x 0 3).trans <| extract_low _ a,
    extract_low _ x⟩

/-- The three opcode bits the decoder looks at, from the opcode field (R51). -/
theorem opcode_bits_of_field {w : Word} {o : BitVec 3} (h : w.extractLsb' 13 3 = o) :
    w[15] = o[2] ∧ w[14] = o[1] ∧ w[13] = o[0] := by
  subst h
  simp

/-- A well-formed immediate is the sign extension of its own low seven bits (R55). -/
theorem signExtend_of_fitsSimm {v : Word} (h : fitsSimm v = true) : (v.extractLsb' 0 7).signExtend 16 = v := by
  have hv := v.isLt
  simp only [fitsSimm, decide_eq_true_eq, BitVec.toInt_eq_toNat_cond] at h
  apply BitVec.eq_of_toNat_eq
  rw [signExtend_7_toNat, BitVec.extractLsb'_toNat]
  simp only [Nat.shiftRight_zero, Nat.reducePow]
  split at h <;> split <;> omega

end Sys2Proof
end

