-- ==== Sys2Proof/Laws/Memory.lean ====
section
/-! SUPPORT. Memory as a map from address to word: read after write, the canonical form, and that every
operation keeps it (R33, R34). -/

namespace Sys2Proof.Machine

@[simp] theorem Memory.wordAt_nil (a : Nat) : Memory.wordAt [] a = Memory.unlisted := rfl

@[simp] theorem Memory.commitStore_none (m : Memory) : m.commitStore none = m := rfl

@[simp] theorem Memory.commitStore_some (m : Memory) (a v : Word) :
    m.commitStore (some (a, v)) = m.put a.toNat v := rfl

theorem Memory.wordAt_drop_self (m : Memory) (a : Nat) : (m.drop a).wordAt a = Memory.unlisted := by
  induction m with
  | nil => rfl
  | cons c m ih =>
    obtain ⟨k, w⟩ := c
    by_cases hk : k = a
    · simpa [Memory.drop, hk] using ih
    · simpa [Memory.drop, hk, Memory.wordAt] using ih

theorem Memory.wordAt_drop_other (m : Memory) {a b : Nat} (h : b ≠ a) :
    (m.drop a).wordAt b = m.wordAt b := by
  induction m with
  | nil => rfl
  | cons c m ih =>
    obtain ⟨k, w⟩ := c
    by_cases hk : k = a
    · subst hk
      simpa [Memory.drop, Memory.wordAt, h.symm] using ih
    · by_cases hb : k = b
      · simp [Memory.drop, Memory.wordAt, hb, h]
      · simpa [Memory.drop, Memory.wordAt, hk, hb] using ih

theorem Memory.wordAt_insert_other (m : Memory) {a b : Nat} (v : Word) (h : b ≠ a) :
    (m.insert a v).wordAt b = m.wordAt b := by
  induction m with
  | nil => simp [Memory.insert, Memory.wordAt, h.symm]
  | cons c m ih =>
    obtain ⟨k, w⟩ := c
    by_cases hlt : a < k
    · simp [Memory.insert, Memory.wordAt, hlt, h.symm]
    · simp [Memory.insert, Memory.wordAt, hlt, ih]

theorem Memory.wordAt_insert_self (m : Memory) {a : Nat} (v : Word) (h : ∀ c ∈ m, c.1 ≠ a) :
    (m.insert a v).wordAt a = v := by
  induction m with
  | nil => simp [Memory.insert, Memory.wordAt]
  | cons c m ih =>
    obtain ⟨k, w⟩ := c
    have hk : k ≠ a := h (k, w) (by simp)
    by_cases hlt : a < k
    · simp [Memory.insert, Memory.wordAt, hlt]
    · simpa [Memory.insert, Memory.wordAt, hlt, hk] using ih fun c hc => h c (by simp [hc])

theorem Memory.mem_drop {m : Memory} {a : Nat} {c : Nat × Word} (h : c ∈ m.drop a) : c ∈ m ∧ c.1 ≠ a := by
  simpa [Memory.drop] using h

/-- A read of the address written gives the word written. -/
@[simp] theorem Memory.wordAt_put_self (m : Memory) (a : Nat) (v : Word) : (m.put a v).wordAt a = v := by
  unfold Memory.put
  split
  · next h => rw [Memory.wordAt_drop_self, h]
  · exact Memory.wordAt_insert_self _ v fun c hc => (Memory.mem_drop hc).2

/-- A write leaves every other address alone. -/
theorem Memory.wordAt_put_other (m : Memory) {a b : Nat} (v : Word) (h : b ≠ a) :
    (m.put a v).wordAt b = m.wordAt b := by
  unfold Memory.put
  split
  · exact Memory.wordAt_drop_other m h
  · rw [Memory.wordAt_insert_other _ v h, Memory.wordAt_drop_other m h]

theorem Memory.mem_insert {m : Memory} {a : Nat} {v : Word} {c : Nat × Word} :
    c ∈ m.insert a v ↔ c = (a, v) ∨ c ∈ m := by
  induction m with
  | nil => simp [Memory.insert]
  | cons d m ih =>
    obtain ⟨k, w⟩ := d
    by_cases hlt : a < k
    · simp [Memory.insert, hlt]
    · simp only [Memory.insert, hlt, if_false, List.mem_cons, ih]
      tauto

/-- What a memory holds after a write: the word written, or entries of before. -/
theorem Memory.mem_put {m : Memory} {a : Nat} {v : Word} {c : Nat × Word} (h : c ∈ m.put a v) :
    c = (a, v) ∧ v ≠ Memory.unlisted ∨ c ∈ m := by
  unfold Memory.put at h
  split at h
  · exact .inr (Memory.mem_drop h).1
  · next hv =>
    rcases Memory.mem_insert.mp h with rfl | h
    · exact .inl ⟨rfl, hv⟩
    · exact .inr (Memory.mem_drop h).1

theorem Memory.insert_sorted {m : Memory} {a : Nat} {v : Word} (hs : m.Pairwise fun c d => c.1 < d.1)
    (ha : ∀ c ∈ m, c.1 ≠ a) : (m.insert a v).Pairwise fun c d => c.1 < d.1 := by
  induction m with
  | nil => simp [Memory.insert]
  | cons d m ih =>
    obtain ⟨k, w⟩ := d
    have hk : k ≠ a := ha (k, w) (by simp)
    rw [List.pairwise_cons] at hs
    by_cases hlt : a < k
    · simp only [Memory.insert, hlt, if_true, List.pairwise_cons, List.mem_cons]
      refine ⟨?_, hs⟩
      rintro c (rfl | hc)
      · exact hlt
      · exact hlt.trans (hs.1 c hc)
    · simp only [Memory.insert, hlt, if_false, List.pairwise_cons]
      refine ⟨?_, ih hs.2 fun c hc => ha c (by simp [hc])⟩
      intro c hc
      rcases Memory.mem_insert.mp hc with rfl | hc
      · show k < a
        omega
      · exact hs.1 c hc

/-- A write keeps the canonical form. -/
theorem Memory.wf_put {m : Memory} (h : m.wf) (a : Nat) (v : Word) : (m.put a v).wf := by
  refine ⟨?_, ?_⟩
  · unfold Memory.put
    split
    · exact h.1.filter _
    · exact Memory.insert_sorted (h.1.filter _) fun c hc => (Memory.mem_drop hc).2
  · intro c hc
    rcases Memory.mem_put hc with ⟨rfl, hv⟩ | hc
    · exact hv
    · exact h.2 c hc

theorem Memory.wf_commitStore {m : Memory} (h : m.wf) (st : Option (Word × Word)) : (m.commitStore st).wf := by
  cases st with
  | none => exact h
  | some st => exact Memory.wf_put h _ _

theorem Memory.wf_ofImage (image : Nat → Word) (n : Nat) : (Memory.ofImage image n).wf := by
  induction n with
  | zero => exact ⟨List.Pairwise.nil, by simp [Memory.ofImage]⟩
  | succ n ih => exact Memory.wf_put ih n (image n)

/-- A memory filled from an image reads as the image, below the size filled. -/
theorem Memory.wordAt_ofImage (image : Nat → Word) {n a : Nat} (h : a < n) :
    (Memory.ofImage image n).wordAt a = image a := by
  induction n with
  | zero => exact absurd h (Nat.not_lt_zero a)
  | succ n ih =>
    by_cases ha : a = n
    · subst ha
      exact Memory.wordAt_put_self _ _ _
    · rw [Memory.ofImage, Memory.wordAt_put_other _ _ ha]
      exact ih (by omega)

/-- A memory filled up to a size holds no entry at or above it. -/
theorem Memory.mem_ofImage {image : Nat → Word} {n : Nat} {c : Nat × Word}
    (h : c ∈ Memory.ofImage image n) : c.1 < n := by
  induction n with
  | zero => simp [Memory.ofImage] at h
  | succ n ih =>
    rcases Memory.mem_put h with ⟨rfl, _⟩ | h
    · exact Nat.lt_succ_self n
    · exact (ih h).trans (Nat.lt_succ_self n)

/-- A listed entry of a canonical memory is what its address reads as. -/
theorem Memory.wordAt_of_mem {m : Memory} (h : m.wf) {c : Nat × Word} (hc : c ∈ m) : m.wordAt c.1 = c.2 := by
  obtain ⟨hs, hu⟩ := h
  induction m with
  | nil => simp at hc
  | cons d m ih =>
    rw [List.pairwise_cons] at hs
    rcases List.mem_cons.mp hc with rfl | hm
    · simp [Memory.wordAt]
    · have hlt : d.1 ≠ c.1 := (hs.1 c hm).ne
      simpa [Memory.wordAt, hlt] using ih hm hs.2 fun e he => hu e (List.mem_cons_of_mem _ he)

/-- A canonical memory lists exactly the addresses that do not read as `unlisted`. -/
theorem Memory.mem_of_wordAt {m : Memory} {a : Nat} (h : m.wordAt a ≠ Memory.unlisted) :
    (a, m.wordAt a) ∈ m := by
  induction m with
  | nil => exact absurd rfl h
  | cons d m ih =>
    obtain ⟨k, w⟩ := d
    by_cases hk : k = a
    · subst hk
      simp [Memory.wordAt]
    · simp only [Memory.wordAt, hk, if_false] at h ⊢
      exact List.mem_cons_of_mem _ (ih h)

/-- Canonical memories that read alike are the same data. -/
theorem Memory.ext_wordAt {m n : Memory} (hm : m.wf) (hn : n.wf) (h : ∀ a, m.wordAt a = n.wordAt a) : m = n := by
  have sub : ∀ {p q : Memory}, p.wf → (∀ a, p.wordAt a = q.wordAt a) → ∀ c ∈ p, c ∈ q := by
    intro p q hp hpq c hc
    have hw := Memory.wordAt_of_mem hp hc
    have hne : q.wordAt c.1 ≠ Memory.unlisted := by
      rw [← hpq, hw]
      exact hp.2 c hc
    simpa [← hpq, hw] using Memory.mem_of_wordAt hne
  have nd : ∀ {p : Memory}, p.wf → p.Nodup := by
    intro p hp
    exact hp.1.imp fun {c d} hlt he => by simp [he] at hlt
  have hperm : m.Perm n := (List.perm_ext_iff_of_nodup (nd hm) (nd hn)).mpr fun c =>
    ⟨sub hm h c, sub hn (fun a => (h a).symm) c⟩
  exact hperm.eq_of_pairwise (fun c d _ _ h1 h2 => absurd h1 (by omega)) hm.1 hn.1

end Sys2Proof.Machine
end

