-- ==== Sys2Proof/Laws/Registers.lean ====
section
/-! SUPPORT. The register file as a map from register to word: what a read gives after a write (R12, R13). -/

namespace Sys2Proof.Machine

@[simp] theorem RegFile.read_r0 (f : RegFile) : f.read .r0 = 0#16 := rfl

@[simp] theorem State.reg_r0 (s : State) : s.reg .r0 = 0#16 := rfl

@[simp] theorem RegFile.write_r0 (f : RegFile) (v : Word) : f.write .r0 v = f := rfl

@[simp] theorem RegFile.writeBack_none (f : RegFile) : f.writeBack none = f := rfl

@[simp] theorem RegFile.writeBack_some (f : RegFile) (r : Reg) (v : Word) :
    f.writeBack (some (r, v)) = f.write r v := rfl

theorem RegFile.read_write_same (f : RegFile) {r : Reg} (v : Word) (h : r ≠ .r0) :
    (f.write r v).read r = v := by
  cases r <;> first | rfl | exact absurd rfl h

theorem RegFile.read_write_other (f : RegFile) {r q : Reg} (v : Word) (h : q ≠ r) :
    (f.write r v).read q = f.read q := by
  cases r <;> cases q <;> first | rfl | exact absurd rfl h

/-- The register a commit writes holds the value written, unless it is r0. -/
theorem State.reg_commit_dest (s : State) (e : Effect) {r : Reg} {v : Word}
    (hd : e.dest = some (r, v)) (h : r ≠ .r0) : (s.commit e).reg r = v := by
  simp [State.reg, State.commit, hd, RegFile.read_write_same _ v h]

/-- A commit keeps every register it does not name. -/
theorem State.reg_commit_other (s : State) (e : Effect) {q : Reg}
    (h : ∀ v, e.dest ≠ some (q, v)) : (s.commit e).reg q = s.reg q := by
  rcases hd : e.dest with _ | ⟨r, v⟩
  · simp [State.reg, State.commit, hd]
  · have hq : q ≠ r := by
      rintro rfl
      exact h v hd
    simp [State.reg, State.commit, hd, RegFile.read_write_other _ v hq]

/-- Two register files that read alike are equal: r1 to r7 are all there is (R10). -/
theorem RegFile.ext_read {f g : RegFile} (h : ∀ r, f.read r = g.read r) : f = g := by
  obtain ⟨_, _, _, _, _, _, _⟩ := f
  obtain ⟨_, _, _, _, _, _, _⟩ := g
  have h1 := h .r1; have h2 := h .r2; have h3 := h .r3; have h4 := h .r4
  have h5 := h .r5; have h6 := h .r6; have h7 := h .r7
  simp only [RegFile.read] at h1 h2 h3 h4 h5 h6 h7
  subst h1 h2 h3 h4 h5 h6 h7
  rfl

end Sys2Proof.Machine
end

