-- ==== Sys2Proof/Laws/State.lean ====
section
/-! SUPPORT. One lemma per field of State per update: the commit (R77) is the only update a step makes. -/

namespace Sys2Proof

/-- Every memory holds at least one word (R6). -/
theorem Config.memSize_pos (c : Config) : 1 ≤ c.memSize := Nat.succ_le_succ (Nat.zero_le _)

end Sys2Proof

namespace Sys2Proof.Machine

@[simp] theorem State.commit_config (s : State) (e : Effect) : (s.commit e).config = s.config := rfl
@[simp] theorem State.commit_pc (s : State) (e : Effect) : (s.commit e).pc = e.nextPc := rfl
@[simp] theorem State.commit_steps (s : State) (e : Effect) : (s.commit e).steps = s.steps + 1 := rfl
@[simp] theorem State.commit_regs (s : State) (e : Effect) : (s.commit e).regs = s.regs.writeBack e.dest := rfl
@[simp] theorem State.commit_mem (s : State) (e : Effect) : (s.commit e).mem = s.mem.commitStore e.store := rfl

@[simp] theorem State.reset_pc : State.reset.pc = 0#16 := rfl
@[simp] theorem State.reset_mem : State.reset.mem = [] := rfl
@[simp] theorem State.reset_steps : State.reset.steps = 0 := rfl
@[simp] theorem State.reset_regs : State.reset.regs = RegFile.zero := rfl
@[simp] theorem State.reset_config : State.reset.config = ⟨0xFFFF#16⟩ := rfl

theorem State.inBounds_iff (s : State) (a : Word) : s.inBounds a = true ↔ a.toNat < s.config.memSize := by
  simp [State.inBounds]

/-- Address 0 exists in every memory. -/
theorem State.inBounds_zero (s : State) : s.inBounds 0#16 = true :=
  (s.inBounds_iff _).mpr s.config.memSize_pos

end Sys2Proof.Machine
end

