-- ==== Sys2Proof/Laws/Ops.lean ====
section
/-! SUPPORT. Everything each shared operation can do: memory access, the end of a step, and execution as a
whole (one inversion lemma per outcome). -/

namespace Sys2Proof.Machine

theorem memRead_inBounds {kind : AccessKind} {a : Word} {s : State} (h : s.inBounds a = true) :
    memRead kind a s = .ok (s.word a) := by simp [memRead, h]

theorem memRead_outOfBounds {kind : AccessKind} {a : Word} {s : State} (h : s.inBounds a = false) :
    memRead kind a s = .error (.memoryOutOfBounds kind a) := by simp [memRead, raise, h]

theorem memWrite_inBounds {a v : Word} {s : State} (h : s.inBounds a = true) :
    memWrite a v s = .ok (a, v) := by simp [memWrite, h]

theorem memWrite_outOfBounds {a v : Word} {s : State} (h : s.inBounds a = false) :
    memWrite a v s = .error (.memoryOutOfBounds .store a) := by simp [memWrite, raise, h]

@[simp] theorem State.finish_ok (s : State) (e : Effect) : s.finish (.ok e) = .next (s.commit e) := rfl

@[simp] theorem State.finish_error (s : State) (f : Fault) : s.finish (.error f) = .fault f := rfl

theorem State.word_commit_store (s : State) (e : Effect) {a v : Word} (h : e.store = some (a, v)) :
    (s.commit e).mem.wordAt a.toNat = v := by
  simp [h]

/-- The LUI result as a number (R93). -/
@[simp] theorem upperWord_toNat (imm : BitVec 10) : (upperWord imm).toNat = imm.toNat * 64 := by
  refine (BitVec.toNat_append imm 0#6).trans ?_
  simp [Nat.shiftLeft_eq]

/-- The NAND result as a number (R92). -/
@[simp] theorem nandWord_toNat (a b : Word) : (nandWord a b).toNat = 65535 - (a.toNat &&& b.toNat) := by
  simp [nandWord]

/-- LW whose address is inside the array commits the loaded word (R100). -/
theorem execLw_inBounds {ra rb : Reg} {simm : Word} {s : State} (h : s.inBounds (s.effAddr ra simm) = true) :
    execLw ra rb simm s =
      .next (s.commit ⟨some (rb, s.word (s.effAddr ra simm)), none, s.seqPc⟩) := by
  simp [execLw, memRead_inBounds h, Except.map]

theorem execLw_outOfBounds {ra rb : Reg} {simm : Word} {s : State}
    (h : s.inBounds (s.effAddr ra simm) = false) :
    execLw ra rb simm s = .fault (.memoryOutOfBounds .load (s.effAddr ra simm)) := by
  simp [execLw, memRead_outOfBounds h, Except.map]

/-- SW whose address is inside the array commits the stored word (R101). -/
theorem execSw_inBounds {ra rb : Reg} {simm : Word} {s : State} (h : s.inBounds (s.effAddr ra simm) = true) :
    execSw ra rb simm s = .next (s.commit ⟨none, some (s.effAddr ra simm, s.reg rb), s.seqPc⟩) := by
  simp [execSw, memWrite_inBounds h, Except.map]

theorem execSw_outOfBounds {ra rb : Reg} {simm : Word} {s : State}
    (h : s.inBounds (s.effAddr ra simm) = false) :
    execSw ra rb simm s = .fault (.memoryOutOfBounds .store (s.effAddr ra simm)) := by
  simp [execSw, memWrite_outOfBounds h, Except.map]

/-- All an execution that commits can do: one commit, of a register write to the instruction's destination,
a memory write to its store address inside the array, and a new pc that is the sequential one but for BEQ and
JALR. -/
theorem exec_next_cases {i : Instr} {s t : State} (h : exec i s = .next t) :
    ∃ e : Effect, t = s.commit e ∧ e.dest.map Prod.fst = destination i ∧
      e.store.map Prod.fst = storeAddr i s ∧ (∀ a, storeAddr i s = some a → s.inBounds a = true) ∧
      (sequential i = true → e.nextPc = s.seqPc) := by
  have commits : ∀ e : Effect, Host.Outcome.next (s.commit e) = (.next t : Result) → t = s.commit e :=
    fun _ he => (Host.Outcome.next.inj he).symm
  cases i with
  | add ra rb rc => exact ⟨_, commits _ h, rfl, rfl, nofun, fun _ => rfl⟩
  | addi ra rb simm => exact ⟨_, commits _ h, rfl, rfl, nofun, fun _ => rfl⟩
  | nand ra rb rc => exact ⟨_, commits _ h, rfl, rfl, nofun, fun _ => rfl⟩
  | lui ra imm => exact ⟨_, commits _ h, rfl, rfl, nofun, fun _ => rfl⟩
  | lw ra rb simm =>
    cases hb : s.inBounds (s.effAddr ra simm) with
    | false => simp [exec, execLw_outOfBounds hb] at h
    | true =>
      rw [exec, execLw_inBounds hb] at h
      exact ⟨_, commits _ h, rfl, rfl, nofun, fun _ => rfl⟩
  | sw ra rb simm =>
    cases hb : s.inBounds (s.effAddr ra simm) with
    | false => simp [exec, execSw_outOfBounds hb] at h
    | true =>
      rw [exec, execSw_inBounds hb] at h
      refine ⟨_, commits _ h, rfl, rfl, ?_, fun _ => rfl⟩
      rintro a ⟨⟩
      exact hb
  | beq ra rb simm => exact ⟨_, commits _ h, rfl, rfl, nofun, nofun⟩
  | jalr ra rb simm => exact ⟨_, commits _ h, rfl, rfl, nofun, nofun⟩

/-- All an execution that faults can do: report its own data access, which is outside the array. -/
theorem exec_fault_cases {i : Instr} {s : State} {f : Fault} (h : exec i s = .fault f) :
    ∃ kind a, dataAccess i s = some (kind, a) ∧ s.inBounds a = false ∧ f = .memoryOutOfBounds kind a := by
  cases i with
  | add ra rb rc => nomatch h
  | addi ra rb simm => nomatch h
  | nand ra rb rc => nomatch h
  | lui ra imm => nomatch h
  | lw ra rb simm =>
    cases hb : s.inBounds (s.effAddr ra simm) with
    | true => simp [exec, execLw_inBounds hb] at h
    | false =>
      rw [exec, execLw_outOfBounds hb] at h
      exact ⟨_, _, rfl, hb, (Host.Outcome.fault.inj h).symm⟩
  | sw ra rb simm =>
    cases hb : s.inBounds (s.effAddr ra simm) with
    | true => simp [exec, execSw_inBounds hb] at h
    | false =>
      rw [exec, execSw_outOfBounds hb] at h
      exact ⟨_, _, rfl, hb, (Host.Outcome.fault.inj h).symm⟩
  | beq ra rb simm => nomatch h
  | jalr ra rb simm => nomatch h

/-- Execution commits when its data access, if it makes one, is inside the array. -/
theorem exec_commits {i : Instr} {s : State}
    (h : ∀ kind a, dataAccess i s = some (kind, a) → s.inBounds a = true) : ∃ t, exec i s = .next t := by
  cases i with
  | add ra rb rc => exact ⟨_, rfl⟩
  | addi ra rb simm => exact ⟨_, rfl⟩
  | nand ra rb rc => exact ⟨_, rfl⟩
  | lui ra imm => exact ⟨_, rfl⟩
  | lw ra rb simm => exact ⟨_, execLw_inBounds (h _ _ rfl)⟩
  | sw ra rb simm => exact ⟨_, execSw_inBounds (h _ _ rfl)⟩
  | beq ra rb simm => exact ⟨_, rfl⟩
  | jalr ra rb simm => exact ⟨_, rfl⟩

end Sys2Proof.Machine
end

