-- ==== Sys2Proof/Laws/PerInstr.lean ====
section
/-! SUPPORT. Statements made per instruction. Family OpcodeField: the encoder puts the opcode number of R53 in
bits [15:13]. -/

namespace Sys2Proof.Laws.OpcodeField

open Sys2Proof.Machine

/-- Bits [15:13] of the encoded word are the instruction's opcode (R51, R53). -/
def Statement (i : Instr) : Prop := (encode i).extractLsb' 13 3 = BitVec.ofNat 3 (opcodeNum i)

theorem add (ra rb rc : Reg) : Statement (.add ra rb rc) := (fields_RRR _ _ _ _ _).1
theorem addi (ra rb : Reg) (simm : Word) : Statement (.addi ra rb simm) := (fields_RRI _ _ _ _).1
theorem nand (ra rb rc : Reg) : Statement (.nand ra rb rc) := (fields_RRR _ _ _ _ _).1
theorem lui (ra : Reg) (imm : BitVec 10) : Statement (.lui ra imm) := (fields_RI _ _ _).1
theorem lw (ra rb : Reg) (simm : Word) : Statement (.lw ra rb simm) := (fields_RRI _ _ _ _).1
theorem sw (ra rb : Reg) (simm : Word) : Statement (.sw ra rb simm) := (fields_RRI _ _ _ _).1
theorem beq (ra rb : Reg) (simm : Word) : Statement (.beq ra rb simm) := (fields_RRI _ _ _ _).1
theorem jalr (ra rb : Reg) (simm : Word) : Statement (.jalr ra rb simm) := (fields_RRI _ _ _ _).1

end Sys2Proof.Laws.OpcodeField
end

