-- ==== Sys2Proof/Laws/Step.lean ====
section
/-! SUPPORT. What a step and a run can do, said once: inversion of each outcome, and the induction over a run. -/

namespace Sys2Proof.Machine

/-- No execution is refused: every arm ends in a commit or a fault (R58, R78). -/
theorem exec_ne_refused (i : Instr) (s : State) (r : Refusal) : exec i s ≠ .refused r := by
  have finishes : ∀ x : Except Fault Effect, s.finish x ≠ .refused r := by
    rintro (_ | _) <;> exact nofun
  cases i with
  | lw ra rb simm => exact finishes _
  | sw ra rb simm => exact finishes _
  | _ => exact nofun

/-- A step that commits fetched inside the array and executed the instruction there (R70, R71). -/
theorem step_next_cases {s t : State} (h : step s = .next t) :
    s.inBounds s.pc = true ∧ exec s.current s = .next t := by
  cases hb : s.inBounds s.pc with
  | false => simp [step, fetch, memRead_outOfBounds hb] at h
  | true =>
    rw [step, fetch, memRead_inBounds hb] at h
    exact ⟨rfl, h⟩

/-- A step that faults failed its fetch, or fetched inside the array and failed its one data access (R120, R125). -/
theorem step_fault_cases {s : State} {f : Fault} (h : step s = .fault f) :
    (s.inBounds s.pc = false ∧ f = .memoryOutOfBounds .fetch s.pc) ∨
    (s.inBounds s.pc = true ∧ ∃ kind a, dataAccess s.current s = some (kind, a) ∧
      s.inBounds a = false ∧ f = .memoryOutOfBounds kind a) := by
  cases hb : s.inBounds s.pc with
  | false =>
    rw [step, fetch, memRead_outOfBounds hb] at h
    exact .inl ⟨rfl, (Host.Outcome.fault.inj h).symm⟩
  | true =>
    rw [step, fetch, memRead_inBounds hb] at h
    exact .inr ⟨rfl, exec_fault_cases h⟩

/-- A property that every step keeps holds at the end of every run from a state that has it. -/
theorem runSteps_keeps {Inv : State → Prop} (keep : ∀ s t, Inv s → step s = .next t → Inv t) :
    ∀ (n : Nat) (s t : State), Inv s → runSteps n s = .limit t → Inv t := by
  intro n
  induction n with
  | zero =>
    rintro s t hs ⟨⟩
    exact hs
  | succ n ih =>
    intro s t hs h
    rw [runSteps] at h
    split at h
    · next u hu => exact ih u t (keep s u hs hu) h
    · nomatch h
    · nomatch h

end Sys2Proof.Machine
end

