-- ==== Sys2Proof/Tests/Slice0.lean ====
section
/-! SUPPORT. Small tests with expected results from 95_test_vectors.md (named V<n>, S<n>) or worked out by hand
from the rules, the smoke test of WellFormed, and for every obligation with hypotheses a witness that they can be
met. -/

namespace Sys2Proof.Tests

open Sys2Proof Sys2Proof.Machine

/-- A state with a given memory size, pc, registers and memory. -/
def at_ (size : Nat) (pc : Word) (regs : RegFile) (mem : Memory) : State :=
  ⟨Config.ofMemSize size, regs, pc, mem, 0⟩

/-- Registers zero but for r1, r2, r3. -/
def r123 (a b c : Word) : RegFile := { RegFile.zero with r1 := a, r2 := b, r3 := c }

/-- One field of the state after one step, if the step commits. -/
def after {α : Type} (s : State) (f : State → α) : Option α := (nextOf (step s)).map f

/-! ### WellFormed -/

theorem test_wf_refuses_addi_64 : (Instr.addi .r1 .r1 64#16).wf = false := by decide
theorem test_wf_refuses_lw_64 : (Instr.lw .r1 .r1 64#16).wf = false := by decide
theorem test_wf_refuses_sw_minus_65 : (Instr.sw .r1 .r1 (-65#16)).wf = false := by decide
theorem test_wf_refuses_beq_0x8000 : (Instr.beq .r1 .r1 0x8000#16).wf = false := by decide
theorem test_wf_refuses_jalr_127 : (Instr.jalr .r1 .r1 127#16).wf = false := by decide
theorem test_wf_accepts_range_ends :
    (Instr.addi .r1 .r1 63#16).wf = true ∧ (Instr.addi .r1 .r1 (-64#16)).wf = true := by decide

/-! ### Decoding and encoding: words written bit by bit from R52 and R53 -/

theorem test_decode_add : decode 0b000_001_010_0000_011#16 = .add .r1 .r2 .r3 := by decide -- V2
theorem test_decode_add_unused_bits : decode 0b000_001_010_1111_011#16 = .add .r1 .r2 .r3 := by decide -- V3
theorem test_decode_addi : decode 0b001_000_000_1000000#16 = .addi .r0 .r0 0xFFC0#16 := by decide -- V5, S1
theorem test_decode_nand : decode 0b010_111_111_1111_111#16 = .nand .r7 .r7 .r7 := by decide -- V7
theorem test_decode_lui : decode 0b011_001_1111111111#16 = .lui .r1 0x3FF#10 := by decide -- V8
theorem test_decode_lw : decode 0b100_010_011_0000001#16 = .lw .r2 .r3 1#16 := by decide -- V9
theorem test_decode_sw : decode 0b101_010_100_1111111#16 = .sw .r2 .r4 0xFFFF#16 := by decide -- V10
theorem test_decode_beq : decode 0b110_000_000_1111111#16 = .beq .r0 .r0 0xFFFF#16 := by decide -- V11
theorem test_decode_jalr : decode 0b111_001_001_0000000#16 = .jalr .r1 .r1 0#16 := by decide -- V12
theorem test_decode_simm_63 : decode 0x203F#16 = .addi .r0 .r0 0x003F#16 := by decide -- V6, S1
theorem test_encode_add : encode (.add .r1 .r2 .r3) = 0x0503#16 := by decide -- V2, R61
theorem test_encode_sw : encode (.sw .r2 .r4 (-1#16)) = 0xAA7F#16 := by decide -- V10
theorem test_encode_lui : encode (.lui .r1 0x3FF#10) = 0x67FF#16 := by decide -- V8
theorem test_table_word : decodeTableWord 16 0xE480 = some (.jalr .r1 .r1 0#16) := by decide -- S6

/-! ### One step of each instruction -/

theorem test_add_wraps : -- V20, S4
    after (at_ 64 0#16 (r123 0xFFFF#16 1#16 0x5555#16) [(0, 0x0503#16)]) (fun t => (t.reg .r3, t.pc)) =
      some (0#16, 1#16) := by decide

theorem test_add_to_r0_discarded : -- V23
    after (at_ 64 0#16 (r123 5#16 6#16 7#16) [(0, 0x0500#16)]) (fun t => (t.regs, t.reg .r0, t.steps)) =
      some (r123 5#16 6#16 7#16, 0#16, 1) := by decide

theorem test_addi_negative_wraps : -- V28
    after (at_ 64 0#16 (r123 0#16 0x1111#16 0#16) [(0, 0x257F#16)]) (fun t => t.reg .r2) =
      some 0xFFFF#16 := by decide

theorem test_addi_top_wraps : -- V32
    after (at_ 64 0#16 (r123 0xFFF0#16 0#16 0#16) [(0, 0x24BF#16)]) (fun t => t.reg .r1) =
      some 0x002F#16 := by decide

theorem test_nand : -- V34
    after (at_ 64 0#16 (r123 0xF0F0#16 0xFF00#16 0#16) [(0, 0x4503#16)]) (fun t => t.reg .r3) =
      some 0x0FFF#16 := by decide

theorem test_lui_clears_low_bits : -- V37, S7
    after (at_ 64 0#16 (r123 0x003F#16 0#16 0#16) [(0, 0x67FF#16)]) (fun t => t.reg .r1) =
      some 0xFFC0#16 := by decide

theorem test_lw_last_word : -- V53
    after (at_ 64 4#16 (r123 0x0040#16 0#16 0#16) [(4, 0x857F#16), (63, 0x00AA#16)]) (fun t => (t.reg .r2, t.pc)) =
      some (0x00AA#16, 5#16) := by decide

theorem test_lw_to_r0_still_faults : -- V54
    faultOf (step (at_ 64 4#16 (r123 0x0040#16 0#16 0#16) [(4, 0x8400#16)])) =
      some (.memoryOutOfBounds .load 64#16) := by decide

theorem test_sw_zero_unlists : -- V59: mem[16] = FFFF becomes 0000
    after (at_ 64 3#16 (r123 0#16 0x0010#16 0#16) [(3, 0xA800#16), (16, 0xFFFF#16)]) (fun t => (t.mem, t.pc)) =
      some ([(3, 0xA800#16)], 4#16) := by decide

theorem test_sw_faults : -- V60
    faultOf (step (at_ 64 3#16 (r123 0x003F#16 0x7777#16 0#16) [(3, 0xA501#16)])) =
      some (.memoryOutOfBounds .store 64#16) := by decide

theorem test_beq_taken : -- V70, S5
    after (at_ 64 10#16 (r123 7#16 7#16 0#16) [(10, 0xC505#16)]) (fun t => t.pc) = some 16#16 := by decide

theorem test_beq_compares_all_bits : -- V75
    after (at_ 64 10#16 (r123 0x8000#16 0#16 0#16) [(10, 0xC505#16)]) (fun t => t.pc) = some 11#16 := by decide

theorem test_jalr_same_register : -- V79, S6
    after (at_ 64 7#16 (r123 20#16 0#16 0#16) [(7, 0xE480#16)]) (fun t => (t.reg .r1, t.pc)) =
      some (8#16, 20#16) := by decide

theorem test_jalr_link_wraps : -- V85
    after (at_ 65536 0xFFFF#16 { RegFile.zero with r6 := 5#16, r7 := 0x1111#16 } [(0xFFFF, 0xFB80#16)])
      (fun t => (t.reg .r7, t.pc)) = some (0#16, 5#16) := by decide

theorem test_last_word_fetchable : -- V40
    after (at_ 64 63#16 RegFile.zero []) (fun t => (t.pc, t.steps)) = some (64#16, 1) := by decide

theorem test_fetch_faults_at_size : -- V41
    faultOf (step (at_ 64 64#16 RegFile.zero [])) = some (.memoryOutOfBounds .fetch 64#16) := by decide

theorem test_placed_word_runs_from_reset : -- R91: ADDI r1, r0, -64 (V26)
    after (State.reset.withFetchWord 16 0x20C0) (fun t => (t.reg .r1, t.pc)) = some (0xFFC0#16, 1#16) := by decide

/-! ### Witnesses: the hypotheses of each obligation can be met together, at a boundary of each clause -/

theorem witness_opcode_map_rows :
    ([0x0000#16, 0x1FFF#16].all fun w => w &&& 0xE000#16 == 0x0000#16) ∧
    ([0x2000#16, 0x3FFF#16].all fun w => w &&& 0xE000#16 == 0x2000#16) ∧
    ([0x4000#16, 0x5FFF#16].all fun w => w &&& 0xE000#16 == 0x4000#16) ∧
    ([0x6000#16, 0x7FFF#16].all fun w => w &&& 0xE000#16 == 0x6000#16) ∧
    ([0x8000#16, 0x9FFF#16].all fun w => w &&& 0xE000#16 == 0x8000#16) ∧
    ([0xA000#16, 0xBFFF#16].all fun w => w &&& 0xE000#16 == 0xA000#16) ∧
    ([0xC000#16, 0xDFFF#16].all fun w => w &&& 0xE000#16 == 0xC000#16) ∧
    ([0xE000#16, 0xFFFF#16].all fun w => w &&& 0xE000#16 == 0xE000#16) := by decide

theorem witness_UnusedBitsOfAddAndNandAreIgnored :
    (0x0503#16 &&& 0xE000#16 = 0x0000#16 ∧ 0x0503#16 &&& 0xFF87#16 = 0x057B#16 &&& 0xFF87#16) ∧
    (0x5F87#16 &&& 0xE000#16 = 0x4000#16 ∧ 0x5F87#16 &&& 0xFF87#16 = 0x5FFF#16 &&& 0xFF87#16) := by decide

theorem witness_DecodeOfEncodeIsTheInstruction :
    (Instr.lw .r7 .r0 63#16).wf = true ∧ (Instr.beq .r0 .r7 (-64#16)).wf = true := by decide

theorem witness_EncodeOfDecodeIsTheWord :
    (((0x5F87#16 : Word) &&& 0xE000#16 = 0x0000#16 ∨ (0x5F87#16 : Word) &&& 0xE000#16 = 0x4000#16) →
      (0x5F87#16 : Word) &&& 0x0078#16 = 0#16) ∧
    (((0xFFFF#16 : Word) &&& 0xE000#16 = 0x0000#16 ∨ (0xFFFF#16 : Word) &&& 0xE000#16 = 0x4000#16) →
      (0xFFFF#16 : Word) &&& 0x0078#16 = 0#16) := by decide

/-- Both fetch clauses: the last word of the array, and the first address outside it. -/
theorem witness_StepRunsTheDecodedInstruction :
    (at_ 64 63#16 RegFile.zero []).pc.toNat < (at_ 64 63#16 RegFile.zero []).config.memSize ∧
    (at_ 64 64#16 RegFile.zero []).config.memSize ≤ (at_ 64 64#16 RegFile.zero []).pc.toNat := by decide

/-- LW at `pc = 4` whose effective address is `r1`. -/
def loadAt (r1 : Word) : State := at_ 64 4#16 (r123 r1 0#16 0#16) [(4, 0x8500#16)]

/-- SW of r2 at `pc = 4` whose effective address is `r1`. -/
def storeAt (r1 : Word) : State := at_ 64 4#16 (r123 r1 0x4501#16 0#16) [(4, 0xA500#16)]

/-- The four clauses: a fetch outside, a load and a store at the first address outside, a load at the last word,
and the full memory. -/
theorem witness_StepFaultsExactlyWhenAnAccessIsOutOfBounds :
    (at_ 64 64#16 RegFile.zero []).config.memSize ≤ (at_ 64 64#16 RegFile.zero []).pc.toNat ∧
    (dataAccess (loadAt 64#16).current (loadAt 64#16) = some (.load, 64#16) ∧
      (loadAt 64#16).pc.toNat < (loadAt 64#16).config.memSize ∧
      (loadAt 64#16).config.memSize ≤ (64#16).toNat) ∧
    (dataAccess (storeAt 64#16).current (storeAt 64#16) = some (.store, 64#16) ∧
      (storeAt 64#16).config.memSize ≤ (64#16).toNat) ∧
    (loadAt 63#16).accessesInBounds ∧ State.reset.config.memSize = 65536 := by
  refine ⟨by decide, by decide, by decide, ⟨by decide, fun kind a h => ?_⟩, by decide⟩
  have h' : some (AccessKind.load, 63#16) = some (kind, a) := h
  cases h'
  decide

theorem witness_LuiBuildsConstants : Reg.r1 ≠ Reg.r0 := by decide

theorem witness_LwLoadsTheWordOrFaults :
    ((loadAt 63#16).effAddr .r1 0#16).toNat < (loadAt 63#16).config.memSize ∧
    (loadAt 64#16).config.memSize ≤ ((loadAt 64#16).effAddr .r1 0#16).toNat := by decide

theorem witness_SwStoresTheRegisterOrFaults :
    ((storeAt 63#16).effAddr .r1 0#16).toNat < (storeAt 63#16).config.memSize ∧
    (storeAt 64#16).config.memSize ≤ ((storeAt 64#16).effAddr .r1 0#16).toNat := by decide

theorem witness_JalrIgnoresItsImmediateBits :
    0xFB80#16 &&& 0xE000#16 = 0xE000#16 ∧ 0xFB80#16 &&& 0xFF80#16 = 0xFBFF#16 &&& 0xFF80#16 := by decide

theorem witness_DestinationMayBeASource :
    Reg.r1 ≠ Reg.r0 ∧ ((loadAt 63#16).reg .r1).toNat < (loadAt 63#16).config.memSize := by decide

/-- The fault clause and the commit clause, both for LW to r2. -/
theorem witness_WritesToRegisterZeroAreDiscarded :
    (∃ t, step (loadAt 63#16) = .next t) ∧ destination (.lw .r1 .r2 0#16) = some .r2 ∧
    exec (.lw .r1 .r2 0#16) (loadAt 64#16) = .fault (.memoryOutOfBounds .load 64#16) ∧
    ∃ t, exec (.lw .r1 .r2 0#16) (loadAt 63#16) = .next t := ⟨⟨_, rfl⟩, rfl, rfl, ⟨_, rfl⟩⟩

/-- ADD r3, r1, r2 changes r3. -/
theorem witness_OnlyTheDestinationRegisterChanges :
    ∃ t, step (at_ 64 0#16 (r123 1#16 2#16 0#16) [(0, 0x0503#16)]) = .next t ∧
      t.reg .r3 ≠ (at_ 64 0#16 (r123 1#16 2#16 0#16) [(0, 0x0503#16)]).reg .r3 := ⟨_, rfl, by decide⟩

/-- The SW changes the last word of the array. -/
theorem witness_OnlyAStoreChangesMemoryAndOnlyItsWord :
    ∃ t, step (storeAt 63#16) = .next t ∧ t.mem.wordAt 63 ≠ (storeAt 63#16).mem.wordAt 63 := ⟨_, rfl, by decide⟩

/-- A taken BEQ (V70) and a JALR (V79). -/
theorem witness_OnlyBeqAndJalrLeaveTheSequence :
    (∃ t, step (at_ 64 10#16 (r123 7#16 7#16 0#16) [(10, 0xC505#16)]) = .next t ∧ t.pc ≠ 10#16 + 1#16) ∧
    ∃ t, step (at_ 64 7#16 (r123 20#16 0#16 0#16) [(7, 0xE480#16)]) = .next t ∧ t.pc ≠ 7#16 + 1#16 :=
  ⟨⟨_, rfl, by decide⟩, ⟨_, rfl, by decide⟩⟩

/-- Two states that differ in r3, in a word the LW does not address and in the counter; the LW faults in one pair
and commits in the other. -/
theorem witness_ExecutionDependsOnlyOnWhatItReads (r1 : Word) (h : r1 = 63#16 ∨ r1 = 64#16) :
    ∃ v : State, v ≠ loadAt r1 ∧ v.config = (loadAt r1).config ∧ v.pc = (loadAt r1).pc ∧
      (∀ r ∈ sources (.lw .r1 .r2 0#16), v.reg r = (loadAt r1).reg r) ∧
      (∀ ra rb simm, Instr.lw .r1 .r2 0#16 = .lw ra rb simm →
        v.word ((loadAt r1).effAddr ra simm) = (loadAt r1).word ((loadAt r1).effAddr ra simm)) ∧
      ((∃ f, exec (.lw .r1 .r2 0#16) (loadAt r1) = .fault f) ∨ ∃ t, exec (.lw .r1 .r2 0#16) (loadAt r1) = .next t) := by
  refine ⟨{ loadAt r1 with regs := r123 r1 0#16 9#16, mem := [(4, 0x8500#16), (5, 1#16)], steps := 3 }, ?_⟩
  rcases h with rfl | rfl
  · refine ⟨by decide, rfl, rfl, by decide, ?_, .inr ⟨_, rfl⟩⟩
    rintro ra rb simm ⟨⟩
    decide
  · refine ⟨by decide, rfl, rfl, by decide, ?_, .inl ⟨_, rfl⟩⟩
    rintro ra rb simm ⟨⟩
    decide

theorem witness_CommittedStepsAreCounted : ∃ t, runSteps 1 (loadAt 63#16) = .limit t := ⟨_, rfl⟩

theorem witness_NoRunDependsOnTheStepCounter :
    (∃ t, runSteps 1 (loadAt 63#16) = .limit t) ∧ ∃ f t, runSteps 1 (loadAt 64#16) = .faulted f t :=
  ⟨⟨_, rfl⟩, ⟨_, _, rfl⟩⟩

theorem witness_AFaultRepeatsForever :
    step (at_ 64 64#16 RegFile.zero []) = .fault (.memoryOutOfBounds .fetch 64#16) := rfl

theorem witness_NoFaultWhenMemoryCoversEveryAddress : State.reset.config.memSize = 65536 := rfl

/-- A NOP at 3 and then an LW at 4 whose address is the first one outside: the second step faults. -/
def nopThenFault : State := at_ 64 3#16 (r123 64#16 0#16 0#16) [(4, 0x8500#16)]

/-- A first step that commits and one that faults; a run that reaches its limit; a run that faults at its last
step, one step committed before it (`k = 1 < 2`), and one that faults at its first (`k = 0 < 1`). -/
theorem witness_RunIsRepeatedStep :
    (∃ t, step nopThenFault = .next t) ∧ (∃ f, step (loadAt 64#16) = .fault f) ∧
    (∃ t, runSteps 1 nopThenFault = .limit t) ∧ (∃ f t, runSteps 2 nopThenFault = .faulted f t) ∧
    (∃ t f, runSteps 1 nopThenFault = .limit t ∧ step t = .fault f) ∧
    ∃ f, runSteps 1 (loadAt 64#16) = .faulted f (loadAt 64#16) :=
  ⟨⟨_, rfl⟩, ⟨_, rfl⟩, ⟨_, rfl⟩, ⟨_, _, rfl⟩, ⟨_, _, rfl, rfl⟩, ⟨_, rfl⟩⟩

/-- V73: `0xC07F`, here in the last word of the array. -/
theorem witness_AParkedStateExecutesForever :
    (at_ 64 63#16 RegFile.zero [(63, 0xC07F#16)]).parked = true := by decide

/-- An SW at 4 to address 5. -/
theorem witness_AStoreIsSeenByTheNextFetch :
    (storeAt 5#16).inBounds ((storeAt 5#16).effAddr .r1 0#16) = true ∧
    (storeAt 5#16).effAddr .r1 0#16 = (storeAt 5#16).pc + 1#16 := by decide

/-- A memory of two words, the word at 0 an ADD. -/
def twoWords : State := State.create (Config.ofMemSize 2) RegFile.zero fun a => if a = 0 then 0x0503#16 else 7#16

/-- The three clauses: one step over the image read at its last word, an SW to the last word followed by no step
that stores there, and the first address outside. -/
theorem witness_MemReadReturnsTheLatestStore :
    ((1#16).toNat < (Config.ofMemSize 2).memSize ∧ (∃ t, runSteps 1 twoWords = .limit t) ∧
      NoStoreTo (1#16).toNat 1 twoWords) ∧
    ((storeAt 63#16).current = .sw .r1 .r2 0#16 ∧
      ∃ v, step (storeAt 63#16) = .next v ∧ (∃ t, runSteps 1 v = .limit t) ∧
        NoStoreTo ((storeAt 63#16).effAddr .r1 0#16).toNat 1 v) ∧
    (loadAt 0#16).config.memSize ≤ (64#16).toNat := by
  have none_stores : ∀ (a : Nat) (s : State), storeAddr s.current s = none → NoStoreTo a 1 s := by
    intro a s hs k hk u hu
    obtain rfl : k = 0 := by omega
    cases hu
    rintro ⟨_, ea, h, _⟩
    simp [hs] at h
  exact ⟨⟨by decide, ⟨_, rfl⟩, none_stores _ _ rfl⟩,
    ⟨by decide, _, rfl, ⟨_, rfl⟩, none_stores _ _ rfl⟩, by decide⟩

/-- JALR to the first address outside, a BEQ taken to it, and the sequential advance from the last word. -/
theorem witness_ATargetOutsideMemoryFaultsAtTheNextFetch :
    (loadAt 64#16).config.memSize ≤ ((loadAt 64#16).reg .r1).toNat ∧
    ((loadAt 0#16).reg .r0 = (loadAt 0#16).reg .r0 ∧
      (loadAt 0#16).config.memSize ≤ ((loadAt 0#16).branchTarget 59#16).toNat) ∧
    (sequential (.add .r0 .r0 .r0) = true ∧
      (∃ t, exec (.add .r0 .r0 .r0) (at_ 64 63#16 RegFile.zero []) = .next t) ∧
      (at_ 64 63#16 RegFile.zero []).pc.toNat + 1 = (at_ 64 63#16 RegFile.zero []).config.memSize ∧
      (at_ 64 63#16 RegFile.zero []).config.memSize < 65536) :=
  ⟨by decide, by decide, rfl, ⟨_, rfl⟩, by decide, by decide⟩

theorem witness_JalrToTheLinkReturnsAfterTheCall :
    Reg.r7 ≠ Reg.r0 ∧ ∃ t u : State, exec (.jalr .r6 .r7 0#16) (loadAt 0#16) = .next t ∧ u.reg .r7 = t.reg .r7 :=
  ⟨by decide, _, _, rfl, rfl⟩

theorem witness_MissingOperationsAreComposed : Reg.r1 ≠ Reg.r0 := by decide

/-- The image is read up to its last word. -/
theorem witness_CreationLoadsTheImageAndStartsAtZero :
    0 < (Config.ofMemSize 2).memSize ∧ 1 < (Config.ofMemSize 2).memSize := by decide

/-- A well-formed state, with an entry in the last word, that a step changes. -/
theorem witness_EveryStepKeepsTheStateWellFormed :
    (storeAt 63#16).wf ∧ ∃ t, step (storeAt 63#16) = .next t := ⟨by decide, _, rfl⟩

/-- A pc inside the array, at its last word. -/
theorem witness_ThePlacedWordIsTheNextInstruction :
    (at_ 64 63#16 RegFile.zero []).inBounds 63#16 = true := by decide

theorem witness_MemorySizeRange :
    (Config.ofMemSize 1).memSize = 1 ∧ (Config.ofMemSize 65536).memSize = 65536 := by decide

theorem witness_InspectionReadsTheWholeState :
    (63 : Nat) < (at_ 64 0#16 RegFile.zero []).config.memSize := by decide

end Sys2Proof.Tests
end

section
/-! The family 10_state.md: what naming another destination changes in an execution (R13, R14, R76). -/

namespace Sys2Proof.Machine

/-- Naming the register an instruction already writes gives the same instruction. -/
theorem withDestination_destination {i : Instr} {rd : Reg} (h : destination i = some rd) :
    withDestination rd i = i := by
  cases i with
  | sw ra rb simm => nomatch h
  | beq ra rb simm => nomatch h
  | _ => cases h; rfl

/-- Execution does not look at the destination's name: for every destination register it is the same fault, or
one commit of the same value there with the same next pc and no store (R75, R76; for LW to r0 see R104). -/
theorem exec_withDestination_cases {i : Instr} {rd : Reg} (s : State) (h : destination i = some rd) :
    (∃ f, ∀ r, exec (withDestination r i) s = .fault f) ∨
    ∃ v pc', ∀ r, exec (withDestination r i) s = .next (s.commit ⟨some (r, v), none, pc'⟩) := by
  cases i with
  | add ra rb rc => exact .inr ⟨_, _, fun _ => rfl⟩
  | addi ra rb simm => exact .inr ⟨_, _, fun _ => rfl⟩
  | nand ra rb rc => exact .inr ⟨_, _, fun _ => rfl⟩
  | lui ra imm => exact .inr ⟨_, _, fun _ => rfl⟩
  | lw ra rb simm =>
    cases hb : s.inBounds (s.effAddr ra simm) with
    | false => exact .inl ⟨_, fun _ => execLw_outOfBounds hb⟩
    | true => exact .inr ⟨_, _, fun _ => execLw_inBounds hb⟩
  | sw ra rb simm => nomatch h
  | beq ra rb simm => nomatch h
  | jalr ra rb simm => exact .inr ⟨_, _, fun _ => rfl⟩

/-- A commit whose result register is r0 changes no register (R13). -/
theorem keepsRegs_commit_r0 (s : State) {e : Effect} {v : Word} (h : e.dest = some (.r0, v)) :
    KeepsRegs s (s.commit e) := by
  intro q
  simp [State.reg, h]

/-- Settles O22: the destination's name decides only where the result goes, and r0 stores nothing. -/
theorem writesToRegisterZeroAreDiscarded : Obligations.WritesToRegisterZeroAreDiscarded := by
  refine ⟨fun _ t _ => t.reg_r0, fun i rd s hd => ?_⟩
  have hself := withDestination_destination hd
  obtain ⟨f, hf⟩ | ⟨v, pc', hc⟩ := exec_withDestination_cases s hd
  · have hi : exec i s = .fault f := hself ▸ hf rd
    simp [hi, hf .r0]
  · have hi : exec i s = .next (s.commit ⟨some (rd, v), none, pc'⟩) := hself ▸ hc rd
    refine ⟨by simp [hi], fun t ht => ?_⟩
    obtain rfl : s.commit ⟨some (rd, v), none, pc'⟩ = t := Host.Outcome.next.inj (hi.symm.trans ht)
    exact ⟨_, hc .r0, keepsRegs_commit_r0 s rfl, rfl, rfl, rfl, rfl⟩

end Sys2Proof.Machine
end

section
/-! The family 30_encoding.md: what the opcode bits decide (R51, R53), the fields each arm delivers (R57), and
which bits of a word its instruction does not depend on (R59). -/

namespace Sys2Proof.Machine

/-! ### Bits under a mask -/

/-- Words that agree under a mask agree under every part of it. -/
theorem and_eq_and_of_submask {w v m n : Word} (hn : m &&& n = n) (h : w &&& m = v &&& m) :
    w &&& n = v &&& n := by
  rw [← hn, ← BitVec.and_assoc, h, BitVec.and_assoc]

/-- Words that agree under a mask agree in every field the mask covers. -/
theorem extractLsb'_eq_of_mask {w v m : Word} {k n : Nat} (hm : m.extractLsb' k n = BitVec.allOnes n)
    (h : w &&& m = v &&& m) : w.extractLsb' k n = v.extractLsb' k n := by
  have hkn := congrArg (BitVec.extractLsb' k n) h
  simpa only [BitVec.extractLsb'_and, hm, BitVec.and_allOnes] using hkn

/-! ### The decoder's eight arms, each from its row of the opcode map (R53) -/

section Arms

variable {w : Word}

theorem decode_of_mask_add (h : w &&& 0xE000#16 = 0x0000#16) :
    decode w = .add (raField w) (rbField w) (rcField w) := by
  simp [decode, opcode_bits_of_mask h]

theorem decode_of_mask_addi (h : w &&& 0xE000#16 = 0x2000#16) :
    decode w = .addi (raField w) (rbField w) (simmField w) := by
  simp [decode, opcode_bits_of_mask h]

theorem decode_of_mask_nand (h : w &&& 0xE000#16 = 0x4000#16) :
    decode w = .nand (raField w) (rbField w) (rcField w) := by
  simp [decode, opcode_bits_of_mask h]

theorem decode_of_mask_lui (h : w &&& 0xE000#16 = 0x6000#16) :
    decode w = .lui (raField w) (immField w) := by
  simp [decode, opcode_bits_of_mask h]

theorem decode_of_mask_lw (h : w &&& 0xE000#16 = 0x8000#16) :
    decode w = .lw (raField w) (rbField w) (simmField w) := by
  simp [decode, opcode_bits_of_mask h]

theorem decode_of_mask_sw (h : w &&& 0xE000#16 = 0xA000#16) :
    decode w = .sw (raField w) (rbField w) (simmField w) := by
  simp [decode, opcode_bits_of_mask h]

theorem decode_of_mask_beq (h : w &&& 0xE000#16 = 0xC000#16) :
    decode w = .beq (raField w) (rbField w) (simmField w) := by
  simp [decode, opcode_bits_of_mask h]

theorem decode_of_mask_jalr (h : w &&& 0xE000#16 = 0xE000#16) :
    decode w = .jalr (raField w) (rbField w) (simmField w) := by
  simp [decode, opcode_bits_of_mask h]

/-! ### The fields each format delivers, as numbers (R54 to R57) -/

theorem readsRRR_of_decode {mk : Reg → Reg → Reg → Instr}
    (h : decode w = mk (raField w) (rbField w) (rcField w)) : ReadsRRR w mk :=
  ⟨_, _, _, h, raField_num w, rbField_num w, rcField_num w⟩

theorem readsRRI_of_decode {mk : Reg → Reg → Word → Instr}
    (h : decode w = mk (raField w) (rbField w) (simmField w)) : ReadsRRI w mk :=
  ⟨_, _, _, h, raField_num w, rbField_num w, simmField_toNat w⟩

theorem readsRI_of_decode {mk : Reg → BitVec 10 → Instr}
    (h : decode w = mk (raField w) (immField w)) : ReadsRI w mk :=
  ⟨_, _, h, raField_num w, immField_toNat w⟩

end Arms

/-- Settles O1: each row's mask selects its arm of the decoder, and the arm's fields are the row's format. -/
theorem decodeFollowsTheOpcodeMap : Obligations.DecodeFollowsTheOpcodeMap := fun _ =>
  ⟨fun h => readsRRR_of_decode (decode_of_mask_add h),
    fun h => readsRRI_of_decode (decode_of_mask_addi h),
    fun h => readsRRR_of_decode (decode_of_mask_nand h),
    fun h => readsRI_of_decode (decode_of_mask_lui h),
    fun h => readsRRI_of_decode (decode_of_mask_lw h),
    fun h => readsRRI_of_decode (decode_of_mask_sw h),
    fun h => readsRRI_of_decode (decode_of_mask_beq h),
    fun h => readsRRI_of_decode (decode_of_mask_jalr h)⟩

/-! ### The opcode number (R51) -/

/-- The opcode number of the decoded instruction, in the three bits the decoder looks at. -/
theorem opcodeNum_decode (w : Word) :
    opcodeNum (decode w) = 4 * w[15].toNat + 2 * w[14].toNat + w[13].toNat := by
  unfold decode
  split <;> simp [opcodeNum, *]

theorem toNat_eq_sum_of_bits (o : BitVec 3) : o.toNat = 4 * o[2].toNat + 2 * o[1].toNat + o[0].toNat := by
  revert o
  decide

/-- Settles O2: the opcode number and the field [15:13] are the same sum of the three bits. -/
theorem opcodeAloneSelectsTheInstruction : Obligations.OpcodeAloneSelectsTheInstruction := by
  intro w
  obtain ⟨h15, h14, h13⟩ := opcode_bits_of_field (w := w) rfl
  have hw := w.isLt
  calc opcodeNum (decode w)
      = (w.extractLsb' 13 3).toNat := by rw [opcodeNum_decode, toNat_eq_sum_of_bits, h15, h14, h13]
    _ = w.toNat / 8192 % 8 := by simp [BitVec.extractLsb'_toNat, Nat.shiftRight_eq_div_pow]
    _ = w.toNat / 8192 := by omega

/-! ### The unused bits of RRR (R59) -/

/-- The mask of bits [15:7] and [2:0] covers the three register fields of RRR. -/
theorem rrrFields_eq_of_mask {w v : Word} (h : w &&& 0xFF87#16 = v &&& 0xFF87#16) :
    raField w = raField v ∧ rbField w = rbField v ∧ rcField w = rcField v :=
  ⟨congrArg Reg.ofBits (extractLsb'_eq_of_mask (by decide) h),
    congrArg Reg.ofBits (extractLsb'_eq_of_mask (by decide) h),
    congrArg Reg.ofBits (extractLsb'_eq_of_mask (by decide) h)⟩

/-- Settles O3: the second word has the same opcode, and both arms read only fields the mask covers. -/
theorem unusedBitsOfAddAndNandAreIgnored : Obligations.UnusedBitsOfAddAndNandAreIgnored := by
  refine ⟨fun w v hop h => ?_, by decide, by decide⟩
  obtain ⟨ha, hb, hc⟩ := rrrFields_eq_of_mask h
  have hv : v &&& 0xE000#16 = w &&& 0xE000#16 := (and_eq_and_of_submask (by decide) h).symm
  obtain hw | hw := hop
  · rw [decode_of_mask_add hw, decode_of_mask_add (hv.trans hw), ha, hb, hc]
  · rw [decode_of_mask_nand hw, decode_of_mask_nand (hv.trans hw), ha, hb, hc]

end Sys2Proof.Machine
end

section
/-! The family 40_step_cycle.md: the outcomes a step can have (R78). -/

namespace Sys2Proof.Machine

/-- No step is refused: a fetch outside the array faults, and inside it the step is an execution (R71, R78). -/
theorem step_ne_refused (s : State) (r : Refusal) : step s ≠ .refused r := by
  cases hb : s.inBounds s.pc with
  | false =>
    rw [step, fetch, memRead_outOfBounds hb]
    exact nofun
  | true =>
    rw [step, fetch, memRead_inBounds hb]
    exact exec_ne_refused _ s r

/-- Settles O9: a step is never refused, and out of bounds is the only reason there is for a fault. -/
theorem everyStepCommitsOrFaultsOutOfBounds : Obligations.EveryStepCommitsOrFaultsOutOfBounds := by
  intro s
  cases hs : step s with
  | next t => exact .inl ⟨t, rfl⟩
  | fault f =>
    obtain ⟨kind, a⟩ := f
    exact .inr ⟨kind, a, rfl⟩
  | refused r => exact absurd hs (step_ne_refused s r)

end Sys2Proof.Machine
end

section
/-! The family 41_alu.md: what the one commit of ADD, ADDI, NAND and LUI leaves behind (head of 41_alu.md), and
the words they write as numbers (R90 to R95). -/

namespace Sys2Proof.Machine

/-! ### The commit the four instructions share -/

/-- Reading the register a commit writes, r0 included (R12, R13). -/
theorem State.reg_commit_dest_ite (s : State) (e : Effect) {r : Reg} {v : Word} (hd : e.dest = some (r, v)) :
    (s.commit e).reg r = if r = .r0 then 0#16 else v := by
  split
  · next h => rw [h, State.reg_r0]
  · next h => exact s.reg_commit_dest e hd h

/-- A commit with result register `r` keeps every other register (R14). -/
theorem keepsRegsBut_commit (s : State) (e : Effect) {r : Reg} {v : Word} (hd : e.dest = some (r, v)) :
    KeepsRegsBut r s (s.commit e) := by
  intro q hq
  refine s.reg_commit_other e fun u hu => hq ?_
  exact (congrArg Prod.fst (Option.some.inj (hd.symm.trans hu))).symm

/-- A commit without a store keeps memory (R32). -/
theorem keepsMemory_commit (s : State) {e : Effect} (h : e.store = none) : KeepsMemory s (s.commit e) := by
  intro a
  simp [h]

/-- Every commit is counted and keeps `MEM_SIZE` (R20, R6). -/
theorem counts_commit (s : State) (e : Effect) : Counts s (s.commit e) := ⟨rfl, rfl⟩

/-- The sequential address as a number (R17, R110). -/
@[simp] theorem State.seqPc_toNat (s : State) : s.seqPc.toNat = (s.pc.toNat + 1) % 65536 := by
  simp [State.seqPc]

/-- All that writing one register and going on to the next word does. -/
theorem State.writeAndAdvance_next (s : State) (rd : Reg) (v : Word) :
    ∃ t, s.writeAndAdvance rd v = .next t ∧ t.reg rd = (if rd = .r0 then 0#16 else v) ∧
      t.pc.toNat = (s.pc.toNat + 1) % 65536 ∧ KeepsRegsBut rd s t ∧ KeepsMemory s t ∧ Counts s t :=
  ⟨_, s.finish_ok _, s.reg_commit_dest_ite _ rfl, s.seqPc_toNat, keepsRegsBut_commit s _ rfl,
    keepsMemory_commit s rfl, counts_commit s _⟩

/-- The same, the word written and the register read as numbers. -/
theorem State.writeAndAdvance_next_toNat (s : State) (rd : Reg) {v : Word} {n : Nat} (hv : v.toNat = n) :
    ∃ t, s.writeAndAdvance rd v = .next t ∧ (t.reg rd).toNat = (if rd = .r0 then 0 else n) ∧
      t.pc.toNat = (s.pc.toNat + 1) % 65536 ∧ KeepsRegsBut rd s t ∧ KeepsMemory s t ∧ Counts s t := by
  obtain ⟨t, ht, hr, hframe⟩ := s.writeAndAdvance_next rd v
  refine ⟨t, ht, ?_, hframe⟩
  rw [hr, apply_ite BitVec.toNat, hv, BitVec.toNat_zero]

/-! ### The words written -/

/-- The sum with a word read as signed (R9, R91). -/
theorem add_toNat_toInt (a b : Word) : ((a + b).toNat : Int) = (a.toNat + b.toInt) % 65536 := by
  rw [BitVec.toNat_add, BitVec.toInt_eq_toNat_cond]
  split <;> omega

/-- Bits [15:6] in their place, plus bits [5:0], are the whole word (R93, R95). -/
theorem upperWord_add_lowBits (k : Word) :
    upperWord (k.extractLsb' 6 10) + (k.extractLsb' 0 6).setWidth 16 = k := by
  have hk := k.isLt
  apply BitVec.eq_of_toNat_eq
  simp only [BitVec.toNat_add, upperWord_toNat, BitVec.toNat_setWidth, BitVec.extractLsb'_toNat,
    Nat.shiftRight_eq_div_pow]
  omega

/-! ### The four instructions -/

/-- Settles O11: the sum of two words is the sum of their numbers modulo 2^16. -/
theorem addWritesTheSumModulo65536 : Obligations.AddWritesTheSumModulo65536 :=
  ⟨fun _ h => readsRRR_of_decode (decode_of_mask_add h),
    fun _ _ rc s => s.writeAndAdvance_next_toNat rc (BitVec.toNat_add _ _)⟩

/-- Settles O12: modulo 2^16 the addend may be read as unsigned or as signed. -/
theorem addiAddsTheSignedImmediateModulo65536 : Obligations.AddiAddsTheSignedImmediateModulo65536 := by
  refine ⟨fun _ h => readsRRI_of_decode (decode_of_mask_addi h), fun ra rb simm s => ?_⟩
  obtain ⟨t, ht, hr, hframe⟩ := s.writeAndAdvance_next_toNat rb (v := s.reg ra + simm) rfl
  refine ⟨t, ht, ?_, hframe⟩
  rw [hr, apply_ite Nat.cast, add_toNat_toInt, Nat.cast_zero]

/-- Settles O13: the complement over 16 bits is the distance from `0xFFFF`. -/
theorem nandWritesTheComplementOfTheAnd : Obligations.NandWritesTheComplementOfTheAnd :=
  ⟨fun _ h => readsRRR_of_decode (decode_of_mask_nand h),
    fun _ _ rc s => s.writeAndAdvance_next_toNat rc (nandWord_toNat _ _)⟩

/-- Settles O14: LUI leaves bits [15:6] of the constant over zeros, and ADDI fills in the six bits below. -/
theorem luiLoadsTheUpperTenBitsAndClearsTheLowerSix :
    Obligations.LuiLoadsTheUpperTenBitsAndClearsTheLowerSix := by
  refine ⟨fun _ h => readsRI_of_decode (decode_of_mask_lui h),
    fun ra imm s => s.writeAndAdvance_next_toNat ra (upperWord_toNat imm), fun ra k s hra => ?_⟩
  obtain ⟨t, ht, hhigh, -⟩ := s.writeAndAdvance_next ra (upperWord (k.extractLsb' 6 10))
  obtain ⟨u, hu, hsum, -⟩ := t.writeAndAdvance_next ra (t.reg ra + (k.extractLsb' 0 6).setWidth 16)
  refine ⟨t, u, ht, hu, ?_⟩
  rw [hsum, if_neg hra, hhigh, if_neg hra, upperWord_add_lowBits]

end Sys2Proof.Machine
end

section
/-! The encoder and the decoder as inverses (R61): the fields of an encoded word, and a decoded word put together
again from its fields. -/

namespace Sys2Proof.Machine

/-! ### The opcode field and the rows of the opcode map (R51, R53) -/

/-- The match and mask test of R53 sees the opcode field alone. -/
theorem and_opcodeMask (w : Word) : w &&& 0xE000#16 = w.extractLsb' 13 3 ++ 0#13 := by
  have hw : w = w.extractLsb' 13 3 ++ w.extractLsb' 0 13 := by
    rw [BitVec.extractLsb'_append_extractLsb'_eq_extractLsb' (by decide)]
    exact BitVec.extractLsb'_eq_self.symm
  have hm : 0xE000#16 = BitVec.allOnes 3 ++ 0#13 := by decide
  calc w &&& 0xE000#16
      = (w.extractLsb' 13 3 ++ w.extractLsb' 0 13) &&& (BitVec.allOnes 3 ++ 0#13) := by rw [← hw, hm]
    _ = w.extractLsb' 13 3 ++ 0#13 := by rw [BitVec.and_append, BitVec.and_allOnes, BitVec.and_zero]

/-- The value under the mask of R53 fixes the opcode field. -/
theorem opcode_of_mask {w v : Word} (h : w &&& 0xE000#16 = v) : w.extractLsb' 13 3 = v.extractLsb' 13 3 := by
  subst h
  rw [BitVec.extractLsb'_and]
  exact BitVec.and_allOnes.symm

/-- Every word meets a row of the opcode map. -/
theorem opcodeMap_cases (w : Word) :
    w &&& 0xE000#16 = 0x0000#16 ∨ w &&& 0xE000#16 = 0x2000#16 ∨ w &&& 0xE000#16 = 0x4000#16 ∨
    w &&& 0xE000#16 = 0x6000#16 ∨ w &&& 0xE000#16 = 0x8000#16 ∨ w &&& 0xE000#16 = 0xA000#16 ∨
    w &&& 0xE000#16 = 0xC000#16 ∨ w &&& 0xE000#16 = 0xE000#16 := by
  rw [and_opcodeMask w]
  generalize w.extractLsb' 13 3 = o
  revert o
  decide

/-- The encoder puts the opcode number in bits [15:13]. -/
theorem opcodeField_encode (i : Instr) : (encode i).extractLsb' 13 3 = BitVec.ofNat 3 (opcodeNum i) := by
  cases i with
  | add ra rb rc => exact Laws.OpcodeField.add ra rb rc
  | addi ra rb simm => exact Laws.OpcodeField.addi ra rb simm
  | nand ra rb rc => exact Laws.OpcodeField.nand ra rb rc
  | lui ra imm => exact Laws.OpcodeField.lui ra imm
  | lw ra rb simm => exact Laws.OpcodeField.lw ra rb simm
  | sw ra rb simm => exact Laws.OpcodeField.sw ra rb simm
  | beq ra rb simm => exact Laws.OpcodeField.beq ra rb simm
  | jalr ra rb simm => exact Laws.OpcodeField.jalr ra rb simm

/-- An encoded instruction meets the row of its opcode number. -/
theorem mask_encode (i : Instr) : encode i &&& 0xE000#16 = BitVec.ofNat 16 (8192 * opcodeNum i) := by
  rw [and_opcodeMask, opcodeField_encode]
  cases i <;> simp only [opcodeNum] <;> decide

/-! ### Decoding an encoded word -/

/-- An RRR word decodes to the registers it was put together from, once its opcode selects an RRR arm. -/
theorem decode_wordRRR {mk : Reg → Reg → Reg → Instr} {op : BitVec 3} {ra rb rc : Reg}
    (h : decode (wordRRR op ra rb rc) = mk (raField (wordRRR op ra rb rc)) (rbField (wordRRR op ra rb rc))
      (rcField (wordRRR op ra rb rc))) : decode (wordRRR op ra rb rc) = mk ra rb rc := by
  obtain ⟨-, ha, hb, hc⟩ := fields_RRR op ra.toBits rb.toBits rc.toBits 0#4
  simpa [raField, rbField, rcField, wordRRR, ha, hb, hc] using h

/-- The same for RRI, for an immediate that the seven bits can hold (R55). -/
theorem decode_wordRRI {mk : Reg → Reg → Word → Instr} {op : BitVec 3} {ra rb : Reg} {simm : Word}
    (hs : fitsSimm simm = true)
    (h : decode (wordRRI op ra rb simm) = mk (raField (wordRRI op ra rb simm)) (rbField (wordRRI op ra rb simm))
      (simmField (wordRRI op ra rb simm))) : decode (wordRRI op ra rb simm) = mk ra rb simm := by
  obtain ⟨-, ha, hb, hi⟩ := fields_RRI op ra.toBits rb.toBits (simm.extractLsb' 0 7)
  simpa [raField, rbField, simmField, wordRRI, ha, hb, hi, signExtend_of_fitsSimm hs] using h

/-- The same for RI. -/
theorem decode_wordRI {mk : Reg → BitVec 10 → Instr} {op : BitVec 3} {ra : Reg} {imm : BitVec 10}
    (h : decode (wordRI op ra imm) = mk (raField (wordRI op ra imm)) (immField (wordRI op ra imm))) :
    decode (wordRI op ra imm) = mk ra imm := by
  obtain ⟨-, ha, hi⟩ := fields_RI op ra.toBits imm
  simpa [raField, immField, wordRI, ha, hi] using h

/-- Settles O4: the opcode selects the instruction's own arm, and the arm's fields are its operands. -/
theorem decodeOfEncodeIsTheInstruction : Obligations.DecodeOfEncodeIsTheInstruction := by
  intro i hi
  cases i with
  | add ra rb rc => exact decode_wordRRR (decode_of_mask_add (mask_encode (.add ra rb rc)))
  | addi ra rb simm => exact decode_wordRRI hi (decode_of_mask_addi (mask_encode (.addi ra rb simm)))
  | nand ra rb rc => exact decode_wordRRR (decode_of_mask_nand (mask_encode (.nand ra rb rc)))
  | lui ra imm => exact decode_wordRI (decode_of_mask_lui (mask_encode (.lui ra imm)))
  | lw ra rb simm => exact decode_wordRRI hi (decode_of_mask_lw (mask_encode (.lw ra rb simm)))
  | sw ra rb simm => exact decode_wordRRI hi (decode_of_mask_sw (mask_encode (.sw ra rb simm)))
  | beq ra rb simm => exact decode_wordRRI hi (decode_of_mask_beq (mask_encode (.beq ra rb simm)))
  | jalr ra rb simm => exact decode_wordRRI hi (decode_of_mask_jalr (mask_encode (.jalr ra rb simm)))

/-! ### Encoding a decoded word -/

theorem toBits_ofBits (b : BitVec 3) : (Reg.ofBits b).toBits = b := by
  revert b
  decide

/-- The seven bits of an immediate survive its sign extension. -/
theorem simmField_low (w : Word) : (simmField w).extractLsb' 0 7 = w.extractLsb' 0 7 := by
  have low : ∀ b : BitVec 7, (b.signExtend 16).extractLsb' 0 7 = b := by decide
  exact low _

/-! An encoded word put together from a word's own fields is that word, format by format. -/

theorem wordRRR_fields {w : Word} {op : BitVec 3} (hop : w.extractLsb' 13 3 = op) (hz : w.extractLsb' 3 4 = 0#4) :
    wordRRR op (raField w) (rbField w) (rcField w) = w := by
  rw [wordRRR, raField, rbField, rcField, toBits_ofBits, toBits_ofBits, toBits_ofBits, ← hop, ← hz]
  simp (disch := decide) only [BitVec.extractLsb'_append_extractLsb'_eq_extractLsb']
  exact BitVec.extractLsb'_eq_self

theorem wordRRI_fields {w : Word} {op : BitVec 3} (hop : w.extractLsb' 13 3 = op) :
    wordRRI op (raField w) (rbField w) (simmField w) = w := by
  rw [wordRRI, raField, rbField, toBits_ofBits, toBits_ofBits, simmField_low, ← hop]
  simp (disch := decide) only [BitVec.extractLsb'_append_extractLsb'_eq_extractLsb']
  exact BitVec.extractLsb'_eq_self

theorem wordRI_fields {w : Word} {op : BitVec 3} (hop : w.extractLsb' 13 3 = op) :
    wordRI op (raField w) (immField w) = w := by
  rw [wordRI, raField, immField, toBits_ofBits, ← hop]
  simp (disch := decide) only [BitVec.extractLsb'_append_extractLsb'_eq_extractLsb']
  exact BitVec.extractLsb'_eq_self

/-- Settles O5: the word is its opcode and fields side by side, and only RRR has bits that no field holds. -/
theorem encodeOfDecodeIsTheWord : Obligations.EncodeOfDecodeIsTheWord := by
  intro w hz
  have unused (h : w &&& 0xE000#16 = 0x0000#16 ∨ w &&& 0xE000#16 = 0x4000#16) : w.extractLsb' 3 4 = 0#4 :=
    extractLsb'_eq_of_mask (v := 0#16) (m := 0x0078#16) (by decide) (hz h)
  obtain h | h | h | h | h | h | h | h := opcodeMap_cases w
  · rw [decode_of_mask_add h]
    exact wordRRR_fields (opcode_of_mask h) (unused (.inl h))
  · rw [decode_of_mask_addi h]
    exact wordRRI_fields (opcode_of_mask h)
  · rw [decode_of_mask_nand h]
    exact wordRRR_fields (opcode_of_mask h) (unused (.inr h))
  · rw [decode_of_mask_lui h]
    exact wordRI_fields (opcode_of_mask h)
  · rw [decode_of_mask_lw h]
    exact wordRRI_fields (opcode_of_mask h)
  · rw [decode_of_mask_sw h]
    exact wordRRI_fields (opcode_of_mask h)
  · rw [decode_of_mask_beq h]
    exact wordRRI_fields (opcode_of_mask h)
  · rw [decode_of_mask_jalr h]
    exact wordRRI_fields (opcode_of_mask h)

/-! ### What the decoder delivers -/

/-- A delivered immediate is in `-64..63` (R55). -/
@[simp] theorem fitsSimm_simmField (w : Word) : fitsSimm (simmField w) = true := by
  have fits : ∀ b : BitVec 7, fitsSimm (b.signExtend 16) = true := by decide
  exact fits _

/-- Settles O6: the only immediate an arm delivers whose type does not bound it is `simmField`. -/
theorem decodedInstructionsAreWellFormed : Obligations.DecodedInstructionsAreWellFormed := by
  intro w
  unfold decode
  split <;> simp [Instr.wf]

/-- Settles O7: nine closed words, computed. -/
theorem sampleWordsDecodeAsTheSpecLists : Obligations.SampleWordsDecodeAsTheSpecLists := by
  unfold Obligations.SampleWordsDecodeAsTheSpecLists
  decide

/-- Settles O20: the mask covers the opcode and both registers, and JALR's meaning takes no immediate (R60). -/
theorem jalrIgnoresItsImmediateBits : Obligations.JalrIgnoresItsImmediateBits := by
  intro w v s hw h
  have hv : v &&& 0xE000#16 = 0xE000#16 := (and_eq_and_of_submask (by decide) h).symm.trans hw
  have ha : raField w = raField v := congrArg Reg.ofBits (extractLsb'_eq_of_mask (by decide) h)
  have hb : rbField w = rbField v := congrArg Reg.ofBits (extractLsb'_eq_of_mask (by decide) h)
  rw [decode_of_mask_jalr hw, decode_of_mask_jalr hv, ha, hb]
  rfl

end Sys2Proof.Machine
end

section
/-! The family 40_step_cycle.md: where a step fetches, when it commits (R70, R71, R120, R125), and the one change
a committing step makes to memory (R32). -/

namespace Sys2Proof.Machine

/-! ### The fetch -/

theorem State.outOfBounds_iff (s : State) (a : Word) : s.inBounds a = false ↔ s.config.memSize ≤ a.toNat := by
  simp [State.inBounds]

theorem step_of_inBounds {s : State} (h : s.inBounds s.pc = true) : step s = exec s.current s := by
  rw [step, fetch, memRead_inBounds h]
  rfl

theorem step_of_outOfBounds {s : State} (h : s.inBounds s.pc = false) :
    step s = .fault (.memoryOutOfBounds .fetch s.pc) := by
  rw [step, fetch, memRead_outOfBounds h]

/-- The step from a state whose word at `pc` is known. -/
theorem step_of_word {s : State} {w : Word} (hb : s.inBounds s.pc = true) (hw : s.word s.pc = w) :
    step s = exec (decode w) s := by
  rw [step_of_inBounds hb, State.current, hw]

/-- Nothing checks the next pc when it is committed; the fetch of the following step does (R114). -/
theorem step_commit_outOfBounds {s : State} {e : Effect} (h : s.config.memSize ≤ e.nextPc.toNat) :
    step (s.commit e) = .fault (.memoryOutOfBounds .fetch e.nextPc) :=
  step_of_outOfBounds (((s.commit e).outOfBounds_iff _).mpr h)

/-- Settles O8: the fetch is the bounds test at `pc`, and nothing follows the execution. -/
theorem stepRunsTheDecodedInstruction : Obligations.StepRunsTheDecodedInstruction := fun s =>
  ⟨fun h => step_of_inBounds ((s.inBounds_iff _).mpr h), fun h => step_of_outOfBounds ((s.outOfBounds_iff _).mpr h)⟩

/-! ### Commit or fault -/

/-- An execution whose data access is outside the array reports that access. -/
theorem exec_outOfBounds {i : Instr} {s : State} {kind : AccessKind} {a : Word}
    (hd : dataAccess i s = some (kind, a)) (hb : s.inBounds a = false) :
    exec i s = .fault (.memoryOutOfBounds kind a) := by
  cases i with
  | lw ra rb simm =>
    cases hd
    exact execLw_outOfBounds hb
  | sw ra rb simm =>
    cases hd
    exact execSw_outOfBounds hb
  | _ => nomatch hd

/-- A step commits exactly when the accesses it makes are inside the array. -/
theorem step_commits_iff {s : State} : (∃ t, step s = .next t) ↔ s.accessesInBounds := by
  constructor
  · rintro ⟨t, h⟩
    obtain ⟨hpc, hx⟩ := step_next_cases h
    refine ⟨hpc, fun kind a hd => ?_⟩
    by_contra hb
    rw [exec_outOfBounds hd (by simpa using hb)] at hx
    nomatch hx
  · rintro ⟨hpc, hdata⟩
    rw [step_of_inBounds hpc]
    exact exec_commits hdata

/-- With `MEM_SIZE = 65536` every address is inside the array (R31). -/
theorem accessesInBounds_of_memSize {s : State} (h : s.config.memSize = 65536) : s.accessesInBounds := by
  have all : ∀ a, s.inBounds a = true := fun a => (s.inBounds_iff a).mpr (h ▸ a.isLt)
  exact ⟨all _, fun _ _ _ => all _⟩

/-- Settles O10: the fetch is tested first, then the one data access; nothing else faults. -/
theorem stepFaultsExactlyWhenAnAccessIsOutOfBounds : Obligations.StepFaultsExactlyWhenAnAccessIsOutOfBounds := by
  refine fun s => ⟨fun h => step_of_outOfBounds ((s.outOfBounds_iff _).mpr h), fun hpc kind a hd ha => ?_,
    step_commits_iff.mpr, fun h => step_commits_iff.mpr (accessesInBounds_of_memSize h)⟩
  rw [step_of_inBounds ((s.inBounds_iff _).mpr hpc)]
  exact exec_outOfBounds hd ((s.outOfBounds_iff _).mpr ha)

/-! ### What a committing step changes -/

/-- A committing step advances the counter by one and keeps `MEM_SIZE` (R20, R6). -/
theorem step_counts {s t : State} (h : step s = .next t) : Counts s t := by
  obtain ⟨-, hx⟩ := step_next_cases h
  obtain ⟨e, rfl, -⟩ := exec_next_cases hx
  exact counts_commit s e

/-- Only SW stores (R101). -/
theorem storeAddr_eq_some {i : Instr} {s : State} {a : Word} (h : storeAddr i s = some a) :
    ∃ ra rb simm, i = .sw ra rb simm ∧ s.effAddr ra simm = a := by
  cases i with
  | sw ra rb simm => exact ⟨ra, rb, simm, rfl, Option.some.inj h⟩
  | _ => nomatch h

/-- An SW that commits does so inside the array, and stores the register (R101). -/
theorem exec_sw_next {ra rb : Reg} {simm : Word} {s t : State} (h : exec (.sw ra rb simm) s = .next t) :
    s.inBounds (s.effAddr ra simm) = true ∧
      t = s.commit ⟨none, some (s.effAddr ra simm, s.reg rb), s.seqPc⟩ := by
  cases hb : s.inBounds (s.effAddr ra simm) with
  | false => simp [exec, execSw_outOfBounds hb] at h
  | true => exact ⟨rfl, (Host.Outcome.next.inj ((execSw_inBounds hb).symm.trans h)).symm⟩

/-- A committing step keeps memory, or is an SW that puts its register at its address inside the array. -/
theorem step_mem_cases {s t : State} (h : step s = .next t) :
    t.mem = s.mem ∨ ∃ ra rb simm, s.current = .sw ra rb simm ∧ s.inBounds (s.effAddr ra simm) = true ∧
      t.mem = s.mem.put (s.effAddr ra simm).toNat (s.reg rb) := by
  obtain ⟨-, hx⟩ := step_next_cases h
  cases hs : storeAddr s.current s with
  | none =>
    obtain ⟨e, rfl, -, hst, -⟩ := exec_next_cases hx
    rw [hs, Option.map_eq_none_iff] at hst
    exact .inl (by simp [hst])
  | some a =>
    obtain ⟨ra, rb, simm, hi, -⟩ := storeAddr_eq_some hs
    obtain ⟨hb, rfl⟩ := exec_sw_next (hi ▸ hx)
    exact .inr ⟨ra, rb, simm, hi, hb, rfl⟩

/-- Settles O43: a put keeps the canonical form, and the bounds test of SW keeps its address inside the array. -/
theorem everyStepKeepsTheStateWellFormed : Obligations.EveryStepKeepsTheStateWellFormed := by
  rintro s t ⟨hwf, hin⟩ h
  obtain ⟨-, hcfg⟩ := step_counts h
  obtain hmem | ⟨ra, rb, simm, -, hb, hmem⟩ := step_mem_cases h
  · rw [State.wf, hmem, hcfg]
    exact ⟨hwf, hin⟩
  · rw [State.wf, hmem, hcfg]
    refine ⟨Memory.wf_put hwf _ _, fun c hc => ?_⟩
    obtain ⟨rfl, -⟩ | hc := Memory.mem_put hc
    · exact (s.inBounds_iff _).mp hb
    · exact hin c hc

/-- Settles O23: a commit keeps every register but the one it names. -/
theorem onlyTheDestinationRegisterChanges : Obligations.OnlyTheDestinationRegisterChanges := by
  intro s t r h hr
  obtain ⟨-, hx⟩ := step_next_cases h
  obtain ⟨e, rfl, hdest, -⟩ := exec_next_cases hx
  constructor
  · by_contra hne
    refine hr (s.reg_commit_other e fun v hv => hne ?_)
    rw [← hdest, hv]
    rfl
  · rintro rfl
    exact hr rfl

/-- Settles O24: the one change to memory is an SW's put, which keeps every other word. -/
theorem onlyAStoreChangesMemoryAndOnlyItsWord : Obligations.OnlyAStoreChangesMemoryAndOnlyItsWord := by
  intro s t a h ha
  obtain hmem | ⟨ra, rb, simm, hi, hb, hmem⟩ := step_mem_cases h
  · exact absurd (by rw [hmem]) ha
  · have hea : (s.effAddr ra simm).toNat = a := by
      by_contra hne
      exact ha (hmem ▸ Memory.wordAt_put_other _ _ (Ne.symm hne))
    subst hea
    exact ⟨ra, rb, simm, hi, rfl, (s.inBounds_iff _).mp hb, hmem ▸ Memory.wordAt_put_self _ _ _⟩

/-- BEQ's one commit, its test as an equation (R111). -/
theorem exec_beq (ra rb : Reg) (simm : Word) (s : State) : exec (.beq ra rb simm) s =
    .next (s.commit ⟨none, none, if s.reg ra = s.reg rb then s.branchTarget simm else s.seqPc⟩) := by
  simp [exec, execBeq, State.regsEqual]

/-- Settles O25: BEQ with different registers goes on to `pc + 1`, as every other instruction but JALR does. -/
theorem onlyBeqAndJalrLeaveTheSequence : Obligations.OnlyBeqAndJalrLeaveTheSequence := by
  intro s t h hpc
  obtain ⟨-, hx⟩ := step_next_cases h
  cases hi : s.current with
  | beq ra rb simm =>
    refine .inl ⟨ra, rb, simm, rfl, ?_⟩
    by_contra hne
    rw [hi, exec_beq, if_neg hne] at hx
    cases hx
    exact hpc rfl
  | jalr ra rb simm => exact .inr ⟨ra, rb, simm, rfl⟩
  | _ =>
    obtain ⟨e, rfl, -, -, -, hseq⟩ := exec_next_cases hx
    exact absurd (hseq (by rw [hi]; rfl)) hpc

end Sys2Proof.Machine
end

section
/-! The families 42_load_store.md and 43_control_transfer.md: result, completion and frame of LW, SW, BEQ and JALR
(R100 to R104, R111 to R114). -/

namespace Sys2Proof.Machine

/-- A commit without a result register keeps every register. -/
theorem keepsRegs_commit (s : State) {e : Effect} (h : e.dest = none) : KeepsRegs s (s.commit e) := by
  intro q
  simp [State.reg, h]

/-- A commit with a store keeps every memory word but the one at its address (R34). -/
theorem keepsMemoryBut_commit (s : State) {e : Effect} {a v : Word} (h : e.store = some (a, v)) :
    KeepsMemoryBut a.toNat s (s.commit e) := by
  intro b hb
  simpa [h] using Memory.wordAt_put_other s.mem v hb

/-- Settles O16: the bounds test decides, whatever the destination is. -/
theorem lwLoadsTheWordOrFaults : Obligations.LwLoadsTheWordOrFaults := fun _ _ _ s =>
  ⟨fun h => ⟨_, execLw_inBounds ((s.inBounds_iff _).mpr h), s.reg_commit_dest_ite _ rfl, s.seqPc_toNat,
      keepsRegsBut_commit s _ rfl, keepsMemory_commit s rfl, counts_commit s _⟩,
    fun h => execLw_outOfBounds ((s.outOfBounds_iff _).mpr h)⟩

/-- Settles O17: the same test, and one put in place of the register write. -/
theorem swStoresTheRegisterOrFaults : Obligations.SwStoresTheRegisterOrFaults := fun _ _ _ s =>
  ⟨fun h => ⟨_, execSw_inBounds ((s.inBounds_iff _).mpr h), s.word_commit_store _ rfl,
      keepsMemoryBut_commit s rfl, s.seqPc_toNat, keepsRegs_commit s rfl, counts_commit s _⟩,
    fun h => execSw_outOfBounds ((s.outOfBounds_iff _).mpr h)⟩

/-- Settles O15: modulo 2^16 the offset may be read as signed. -/
theorem effectiveAddressIsBasePlusOffsetModulo65536 : Obligations.EffectiveAddressIsBasePlusOffsetModulo65536 :=
  fun _ _ _ => add_toNat_toInt _ _

/-- The branch target as a number, the immediate signed (R110). -/
theorem State.branchTarget_toNat (s : State) (simm : Word) :
    ((s.branchTarget simm).toNat : Int) = ((s.pc.toNat : Int) + 1 + simm.toInt) % 65536 := by
  have hseq := s.seqPc_toNat
  calc ((s.branchTarget simm).toNat : Int)
      = (s.seqPc.toNat + simm.toInt) % 65536 := add_toNat_toInt s.seqPc simm
    _ = ((s.pc.toNat : Int) + 1 + simm.toInt) % 65536 := by omega

/-- Settles O18: the two candidates of the next pc as numbers. -/
theorem beqBranchesRelativeToTheNextInstruction : Obligations.BeqBranchesRelativeToTheNextInstruction := by
  intro ra rb simm s
  refine ⟨_, exec_beq ra rb simm s, ?_, keepsRegs_commit s rfl, keepsMemory_commit s rfl, counts_commit s _⟩
  rw [State.commit_pc]
  split
  · exact s.branchTarget_toNat simm
  · rw [s.seqPc_toNat]
    omega

/-- JALR's one commit, its target read in the state before the link is written (R112). -/
theorem exec_jalr (ra rb : Reg) (simm : Word) (s : State) :
    exec (.jalr ra rb simm) s = .next (s.commit ⟨some (rb, s.seqPc), none, s.reg ra⟩) := rfl

/-- Settles O19: the target is read from the state before the commit, so `ra = rb` is no special case. -/
theorem jalrJumpsAndLinks : Obligations.JalrJumpsAndLinks := by
  intro ra rb simm s
  refine ⟨_, exec_jalr ra rb simm s, rfl, ?_, keepsRegsBut_commit s _ rfl, keepsMemory_commit s rfl,
    counts_commit s _⟩
  rw [s.reg_commit_dest_ite _ rfl, apply_ite BitVec.toNat, s.seqPc_toNat, BitVec.toNat_zero]

/-- Settles O21: sources are read from the state before the commit. -/
theorem destinationMayBeASource : Obligations.DestinationMayBeASource := by
  refine fun r simm s hr => ⟨?_, fun h => ?_, _, exec_jalr r r simm s, rfl, s.reg_commit_dest _ rfl hr⟩
  · obtain ⟨t, ht, hsum, -⟩ := s.writeAndAdvance_next_toNat r (BitVec.toNat_add (s.reg r) (s.reg r))
    refine ⟨t, ht, ?_⟩
    rw [hsum, if_neg hr]
    omega
  · have hea : s.effAddr r 0#16 = s.reg r := BitVec.add_zero _
    have hb : s.inBounds (s.effAddr r 0#16) = true := by rwa [hea, s.inBounds_iff]
    refine ⟨_, execLw_inBounds hb, ?_⟩
    rw [s.reg_commit_dest _ rfl hr, hea]
    rfl

/-- Settles O34: the commit of the SW leaves `pc` at the address whose word it replaced. -/
theorem aStoreIsSeenByTheNextFetch : Obligations.AStoreIsSeenByTheNextFetch := by
  intro ra rb simm s hb hea
  have hpc : s.seqPc = s.effAddr ra simm := hea.symm
  refine ⟨_, execSw_inBounds hb, ?_⟩
  rw [hpc]
  exact step_of_word hb (s.word_commit_store _ rfl)

/-- Settles O36: each of the three commits the target, and the next fetch tests it. -/
theorem aTargetOutsideMemoryFaultsAtTheNextFetch : Obligations.ATargetOutsideMemoryFaultsAtTheNextFetch := by
  refine ⟨fun ra rb simm s h => ⟨_, exec_jalr ra rb simm s, step_commit_outOfBounds h⟩,
    fun ra rb simm s heq h => ⟨_, exec_beq ra rb simm s, ?_⟩, fun i s t hi hx hlast hsize => ?_⟩
  · rw [if_pos heq]
    exact step_commit_outOfBounds h
  · obtain ⟨e, rfl, -, -, -, hseq⟩ := exec_next_cases hx
    have hpc : e.nextPc = s.seqPc := hseq hi
    have hout : s.config.memSize ≤ e.nextPc.toNat := by
      rw [hpc, s.seqPc_toNat]
      omega
    rw [step_commit_outOfBounds hout, hpc]
    rfl

/-- Settles O37: the link is `pc + 1`, and a return that links in r0 keeps every register. -/
theorem jalrToTheLinkReturnsAfterTheCall : Obligations.JalrToTheLinkReturnsAfterTheCall := by
  intro ra rb x y s t hrb hcall u hlink
  rw [exec_jalr] at hcall
  cases hcall
  rw [s.reg_commit_dest _ rfl hrb] at hlink
  exact ⟨_, exec_jalr rb .r0 y u, hlink, keepsRegs_commit_r0 u rfl⟩

/-- Settles O38: each composition is the arithmetic of its two results. -/
theorem missingOperationsAreComposed : Obligations.MissingOperationsAreComposed := by
  intro a b c s hc
  constructor
  · obtain ⟨t, ht, hnot, -⟩ := s.writeAndAdvance_next_toNat c (nandWord_toNat (s.reg a) (s.reg a))
    obtain ⟨u, hu, hneg, -⟩ := t.writeAndAdvance_next_toNat c (BitVec.toNat_add (t.reg c) 1#16)
    rw [if_neg hc, Nat.and_self] at hnot
    rw [if_neg hc, hnot] at hneg
    have ha := (s.reg a).isLt
    refine ⟨t, u, ht, hnot, hu, hneg.trans ?_⟩
    simp only [BitVec.toNat_ofNat]
    omega
  · obtain ⟨t, ht, hnand, -⟩ := s.writeAndAdvance_next_toNat c (nandWord_toNat (s.reg a) (s.reg b))
    obtain ⟨u, hu, hand, -⟩ := t.writeAndAdvance_next_toNat c (nandWord_toNat (t.reg c) (t.reg c))
    rw [if_neg hc] at hnand
    rw [if_neg hc, Nat.and_self, hnand] at hand
    have hle : (s.reg a).toNat &&& (s.reg b).toNat ≤ (s.reg a).toNat := Nat.and_le_left
    have ha := (s.reg a).isLt
    exact ⟨t, u, ht, hu, by omega⟩

/-- Settles O39: the word `0x0000` is ADD to r0, whose commit writes nothing. -/
theorem nopChangesOnlyPcAndSteps : Obligations.NopChangesOnlyPcAndSteps := by
  intro s
  have hnop : decode 0x0000#16 = .add .r0 .r0 .r0 := by decide
  rw [hnop]
  rfl

end Sys2Proof.Machine
end

section
/-! Pure execution (R70, R73): the fault or the effect an instruction yields, before the commit, and what it depends
on. -/

namespace Sys2Proof.Machine

/-- `execute(i, s)` of R70. -/
def effectOf (i : Instr) (s : State) : Except Fault Effect :=
  match i with
  | .add ra rb rc => .ok ⟨some (rc, s.reg ra + s.reg rb), none, s.seqPc⟩
  | .addi ra rb simm => .ok ⟨some (rb, s.reg ra + simm), none, s.seqPc⟩
  | .nand ra rb rc => .ok ⟨some (rc, nandWord (s.reg ra) (s.reg rb)), none, s.seqPc⟩
  | .lui ra imm => .ok ⟨some (ra, upperWord imm), none, s.seqPc⟩
  | .lw ra rb simm => (memRead .load (s.effAddr ra simm) s).map fun v => ⟨some (rb, v), none, s.seqPc⟩
  | .sw ra rb simm => (memWrite (s.effAddr ra simm) (s.reg rb) s).map fun st => ⟨none, some st, s.seqPc⟩
  | .beq ra rb simm => .ok ⟨none, none, if s.regsEqual ra rb then s.branchTarget simm else s.seqPc⟩
  | .jalr ra rb _ => .ok ⟨some (rb, s.seqPc), none, s.reg ra⟩

/-- The model's execution is the pure one and then the commit (R70). -/
theorem exec_eq_finish_effectOf (i : Instr) (s : State) : exec i s = s.finish (effectOf i s) := by
  cases i <;> rfl

theorem exec_eq_next_iff {i : Instr} {s t : State} :
    exec i s = .next t ↔ ∃ e, effectOf i s = .ok e ∧ s.commit e = t := by
  rw [exec_eq_finish_effectOf]
  cases effectOf i s <;> simp

theorem exec_eq_fault_iff {i : Instr} {s : State} {f : Fault} :
    exec i s = .fault f ↔ effectOf i s = .error f := by
  rw [exec_eq_finish_effectOf]
  cases effectOf i s <;> simp

/-- The effect names the instruction's destination and its store address. -/
theorem effectOf_ok {i : Instr} {s : State} {e : Effect} (h : effectOf i s = .ok e) :
    e.dest.map Prod.fst = destination i ∧ e.store.map Prod.fst = storeAddr i s := by
  cases i with
  | lw ra rb simm =>
    cases hb : s.inBounds (s.effAddr ra simm) with
    | false =>
      rw [effectOf, memRead_outOfBounds hb] at h
      nomatch h
    | true =>
      rw [effectOf, memRead_inBounds hb] at h
      cases h
      exact ⟨rfl, rfl⟩
  | sw ra rb simm =>
    cases hb : s.inBounds (s.effAddr ra simm) with
    | false =>
      rw [effectOf, memWrite_outOfBounds hb] at h
      nomatch h
    | true =>
      rw [effectOf, memWrite_inBounds hb] at h
      cases h
      exact ⟨rfl, rfl⟩
  | _ =>
    cases h
    exact ⟨rfl, rfl⟩

/-! ### What the effect depends on -/

theorem memRead_congr {s v : State} (hc : v.config = s.config) {kind : AccessKind} {a : Word}
    (hw : v.word a = s.word a) : memRead kind a v = memRead kind a s := by
  simp [memRead, State.inBounds, hc, hw]

theorem memWrite_congr {s v : State} (hc : v.config = s.config) (a x : Word) : memWrite a x v = memWrite a x s := by
  simp [memWrite, State.inBounds, hc]

/-- The effect is a function of `MEM_SIZE`, `pc`, the source registers and the word an LW addresses. -/
theorem effectOf_congr {i : Instr} {s v : State} (hc : v.config = s.config) (hpc : v.pc = s.pc)
    (hsrc : ∀ r ∈ sources i, v.reg r = s.reg r)
    (hload : ∀ ra rb simm, i = .lw ra rb simm → v.word (s.effAddr ra simm) = s.word (s.effAddr ra simm)) :
    effectOf i v = effectOf i s := by
  have hseq : v.seqPc = s.seqPc := congrArg (· + 1#16) hpc
  cases i with
  | add ra rb rc => simp [effectOf, hseq, hsrc ra (by simp [sources]), hsrc rb (by simp [sources])]
  | addi ra rb simm => simp [effectOf, hseq, hsrc ra (by simp [sources])]
  | nand ra rb rc => simp [effectOf, hseq, hsrc ra (by simp [sources]), hsrc rb (by simp [sources])]
  | lui ra imm => simp [effectOf, hseq]
  | lw ra rb simm =>
    have hea : v.effAddr ra simm = s.effAddr ra simm := congrArg (· + simm) (hsrc ra (by simp [sources]))
    simp [effectOf, hseq, hea, memRead_congr hc (hload ra rb simm rfl)]
  | sw ra rb simm =>
    have hea : v.effAddr ra simm = s.effAddr ra simm := congrArg (· + simm) (hsrc ra (by simp [sources]))
    simp [effectOf, hseq, hea, memWrite_congr hc, hsrc rb (by simp [sources])]
  | beq ra rb simm =>
    have htarget : v.branchTarget simm = s.branchTarget simm := congrArg (· + simm) hseq
    simp [effectOf, hseq, htarget, State.regsEqual, hsrc ra (by simp [sources]), hsrc rb (by simp [sources])]
  | jalr ra rb simm => simp [effectOf, hseq, hsrc ra (by simp [sources])]

/-- Settles O26: both states commit the same effect, or report the same fault. -/
theorem executionDependsOnlyOnWhatItReads : Obligations.ExecutionDependsOnlyOnWhatItReads := by
  intro i s v hc hpc hsrc hload
  have heff : effectOf i v = effectOf i s := effectOf_congr hc hpc hsrc hload
  refine ⟨fun f hf => ?_, fun t ht => ?_⟩
  · rw [exec_eq_fault_iff] at hf ⊢
    exact heff.trans hf
  · obtain ⟨e, he, rfl⟩ := exec_eq_next_iff.mp ht
    obtain ⟨hdest, hstore⟩ := effectOf_ok he
    obtain ⟨-, hstore'⟩ := effectOf_ok (heff.trans he)
    refine ⟨v.commit e, exec_eq_next_iff.mpr ⟨e, heff.trans he, rfl⟩, rfl, fun r hr => ?_,
      hstore'.symm.trans hstore, fun a ha => ?_⟩
    · obtain ⟨⟨_, x⟩, hd, rfl⟩ := Option.map_eq_some_iff.mp (hdest.trans hr)
      rw [v.reg_commit_dest_ite e hd, s.reg_commit_dest_ite e hd]
    · obtain ⟨⟨_, x⟩, hst, rfl⟩ := Option.map_eq_some_iff.mp (hstore.trans ha)
      exact (v.word_commit_store e hst).trans (s.word_commit_store e hst).symm

/-! ### The step counter -/

theorem effectOf_with_steps (i : Instr) (s : State) (n : Nat) : effectOf i { s with steps := n } = effectOf i s :=
  effectOf_congr rfl rfl (fun _ _ => rfl) fun _ _ _ _ => rfl

/-- A step from the same state with another counter value commits alike but for the counter (R20). -/
theorem step_with_steps_of_next {s t : State} (n : Nat) (h : step s = .next t) :
    step { s with steps := n } = .next { t with steps := n + 1 } := by
  obtain ⟨hb, hx⟩ := step_next_cases h
  obtain ⟨e, he, rfl⟩ := exec_eq_next_iff.mp hx
  have heff : effectOf s.current { s with steps := n } = .ok e := (effectOf_with_steps _ s n).trans he
  exact (step_of_inBounds (s := { s with steps := n }) hb).trans (exec_eq_next_iff.mpr ⟨e, heff, rfl⟩)

/-- The same for a step that faults. -/
theorem step_with_steps_of_fault {s : State} {f : Fault} (n : Nat) (h : step s = .fault f) :
    step { s with steps := n } = .fault f := by
  cases hb : s.inBounds s.pc with
  | false =>
    rw [step_of_outOfBounds hb] at h
    exact (step_of_outOfBounds (s := { s with steps := n }) hb).trans h
  | true =>
    rw [step_of_inBounds hb, exec_eq_fault_iff] at h
    have heff : effectOf s.current { s with steps := n } = .error f := (effectOf_with_steps _ s n).trans h
    exact (step_of_inBounds (s := { s with steps := n }) hb).trans (exec_eq_fault_iff.mpr heff)

end Sys2Proof.Machine
end

section
/-! Runs (R82): repeated steps, where they end, and what holds along them. -/

namespace Sys2Proof.Machine

/-! ### A run step by step -/

theorem runSteps_succ_of_next {s t : State} (n : Nat) (h : step s = .next t) :
    runSteps (n + 1) s = runSteps n t := by
  rw [runSteps, h]

theorem runSteps_succ_of_fault {s : State} {f : Fault} (n : Nat) (h : step s = .fault f) :
    runSteps (n + 1) s = .faulted f s := by
  rw [runSteps, h]

/-- A run that commits one step or more commits its first. -/
theorem runSteps_succ_eq_limit_iff {n : Nat} {s t : State} :
    runSteps (n + 1) s = .limit t ↔ ∃ u, step s = .next u ∧ runSteps n u = .limit t := by
  cases hs : step s with
  | next u => simp [runSteps_succ_of_next n hs]
  | fault f => simp [runSteps_succ_of_fault n hs]
  | refused r => exact absurd hs (step_ne_refused s r)

/-- Runs compose. -/
theorem runSteps_add {m : Nat} (n : Nat) {s t : State} (h : runSteps m s = .limit t) :
    runSteps (m + n) s = runSteps n t := by
  induction m generalizing s with
  | zero =>
    cases h
    rw [Nat.zero_add]
  | succ m ih =>
    obtain ⟨u, hu, h⟩ := runSteps_succ_eq_limit_iff.mp h
    rw [Nat.succ_add, runSteps_succ_of_next _ hu, ih h]

/-- A run faults exactly when a step it reaches does (R82). -/
theorem runSteps_eq_faulted_iff {n : Nat} {s t : State} {f : Fault} :
    runSteps n s = .faulted f t ↔ ∃ k, k < n ∧ runSteps k s = .limit t ∧ step t = .fault f := by
  constructor
  · intro h
    induction n generalizing s with
    | zero => nomatch h
    | succ n ih =>
      cases hs : step s with
      | next u =>
        rw [runSteps_succ_of_next n hs] at h
        obtain ⟨k, hk, hrun, hf⟩ := ih h
        exact ⟨k + 1, Nat.succ_lt_succ hk, (runSteps_succ_of_next k hs).trans hrun, hf⟩
      | fault g =>
        rw [runSteps_succ_of_fault n hs] at h
        cases h
        exact ⟨0, n.succ_pos, rfl, hs⟩
      | refused r => exact absurd hs (step_ne_refused s r)
  · rintro ⟨k, hk, hrun, hf⟩
    obtain ⟨j, rfl⟩ := Nat.exists_eq_add_of_lt hk
    rw [Nat.add_assoc, runSteps_add (j + 1) hrun, runSteps_succ_of_fault j hf]

theorem runSteps_ne_refused (n : Nat) (s t : State) (r : Refusal) : runSteps n s ≠ .refused r t := by
  induction n generalizing s with
  | zero => exact nofun
  | succ n ih =>
    cases hs : step s with
    | next u =>
      rw [runSteps_succ_of_next n hs]
      exact ih u
    | fault f =>
      rw [runSteps_succ_of_fault n hs]
      exact nofun
    | refused q => exact absurd hs (step_ne_refused s q)

/-- A committed run is what as many host calls of `step` give. -/
theorem afterStep_iterate_of_limit {n : Nat} {s t : State} (h : runSteps n s = .limit t) :
    State.afterStep^[n] s = t := by
  induction n generalizing s with
  | zero =>
    cases h
    rfl
  | succ n ih =>
    obtain ⟨u, hu, h⟩ := runSteps_succ_eq_limit_iff.mp h
    have hafter : s.afterStep = u := by rw [State.afterStep, hu]
    rw [Function.iterate_succ_apply, hafter, ih h]

/-- Without a limit a run comes back with exactly the faults it reaches. -/
theorem runReturns_none_iff {s : State} {e : RunEnd} : RunReturns none s e ↔
    ∃ k f t, runSteps k s = .limit t ∧ step t = .fault f ∧ e = .faulted f t := by
  constructor
  · rintro ⟨n, f, t, h, rfl⟩
    obtain ⟨k, -, hrun, hf⟩ := runSteps_eq_faulted_iff.mp h
    exact ⟨k, f, t, hrun, hf, rfl⟩
  · rintro ⟨k, f, t, hrun, hf, rfl⟩
    exact ⟨k + 1, f, t, runSteps_eq_faulted_iff.mpr ⟨k, k.lt_succ_self, hrun, hf⟩, rfl⟩

/-- Settles O32: its clauses are the rules of this section. -/
theorem runIsRepeatedStep : Obligations.RunIsRepeatedStep := by
  refine fun m n s => ⟨rfl, fun t => runSteps_succ_of_next n, fun f => runSteps_succ_of_fault n,
    fun t => afterStep_iterate_of_limit, fun f t => runSteps_eq_faulted_iff, fun e => runReturns_none_iff,
    fun t => runSteps_add n, fun f t h => ?_⟩
  obtain ⟨k, hk, hrun, hf⟩ := runSteps_eq_faulted_iff.mp h
  exact runSteps_eq_faulted_iff.mpr ⟨k, Nat.lt_add_right n hk, hrun, hf⟩

/-! ### The step counter and `MEM_SIZE` along a run -/

/-- Settles O27: each committed step counts one and keeps the configuration. -/
theorem committedStepsAreCounted : Obligations.CommittedStepsAreCounted := by
  intro n s t h
  induction n generalizing s with
  | zero =>
    cases h
    exact ⟨rfl, rfl⟩
  | succ n ih =>
    obtain ⟨u, hu, h⟩ := runSteps_succ_eq_limit_iff.mp h
    obtain ⟨hone, hcfg⟩ := step_counts hu
    obtain ⟨hrest, hcfg'⟩ := ih u h
    exact ⟨by omega, hcfg'.trans hcfg⟩

/-- A committed run from the same state with another counter value goes alike but for the counter. -/
theorem runSteps_with_steps_of_limit {k : Nat} (n : Nat) {s t : State} (h : runSteps k s = .limit t) :
    runSteps k { s with steps := n } = .limit { t with steps := n + k } := by
  induction k generalizing s n with
  | zero =>
    cases h
    rfl
  | succ k ih =>
    obtain ⟨u, hu, h⟩ := runSteps_succ_eq_limit_iff.mp h
    rw [runSteps_succ_of_next k (step_with_steps_of_next n hu), ih (n + 1) h, Nat.add_assoc, Nat.add_comm 1 k]

/-- Settles O28: the steps committed before a fault go alike, and so does the step that faults. -/
theorem noRunDependsOnTheStepCounter : Obligations.NoRunDependsOnTheStepCounter := by
  refine fun k n s => ⟨fun t => runSteps_with_steps_of_limit n, fun f t h => ?_⟩
  obtain ⟨j, hj, hrun, hf⟩ := runSteps_eq_faulted_iff.mp h
  exact ⟨n + j, runSteps_eq_faulted_iff.mpr
    ⟨j, hj, runSteps_with_steps_of_limit n hrun, step_with_steps_of_fault _ hf⟩⟩

/-- Settles O29: the host finds the state it had, so the next step is the same step. -/
theorem aFaultRepeatsForever : Obligations.AFaultRepeatsForever := by
  intro s f h n
  have hfix : s.afterStep = s := by rw [State.afterStep, h]
  have hiter : State.afterStep^[n] s = s := Function.iterate_fixed hfix n
  exact ⟨hiter, hiter.symm ▸ h⟩

/-! ### Safety -/

/-- A run is safe when every step it takes commits. -/
theorem safeRun_iff_commits {n : Nat} {s : State} :
    SafeRun n s ↔ ∀ k, k < n → ∀ u, runSteps k s = .limit u → ∃ t, step u = .next t := by
  constructor
  · rintro ⟨t, ht⟩ k hk u hu
    cases hs : step u with
    | next v => exact ⟨v, rfl⟩
    | fault f =>
      rw [runSteps_eq_faulted_iff.mpr ⟨k, hk, hu, hs⟩] at ht
      nomatch ht
    | refused r => exact absurd hs (step_ne_refused u r)
  · intro h
    cases hr : runSteps n s with
    | limit t => exact ⟨t, hr⟩
    | faulted f t =>
      obtain ⟨k, hk, hu, hf⟩ := runSteps_eq_faulted_iff.mp hr
      obtain ⟨v, hv⟩ := h k hk t hu
      rw [hf] at hv
      nomatch hv
    | refused r t => exact absurd hr (runSteps_ne_refused n s t r)

/-- Settles O31: a step commits exactly when its accesses are inside the array. -/
theorem safeRunIffEveryAccessIsInBounds : Obligations.SafeRunIffEveryAccessIsInBounds := by
  intro n s
  simp only [safeRun_iff_commits, step_commits_iff]

/-- Settles O30: `MEM_SIZE` is the same all along the run, and nothing lies outside it. -/
theorem noFaultWhenMemoryCoversEveryAddress : Obligations.NoFaultWhenMemoryCoversEveryAddress := by
  refine fun n s hsize => (safeRunIffEveryAccessIsInBounds n s).mpr fun k _ u hu => ?_
  obtain ⟨-, hcfg⟩ := committedStepsAreCounted k s u hu
  exact accessesInBounds_of_memSize (hcfg ▸ hsize)

/-! ### Parked states (R85) -/

theorem parked_iff {s : State} : s.parked = true ↔ s.inBounds s.pc = true ∧
    ∃ ra rb simm, s.current = .beq ra rb simm ∧ s.reg ra = s.reg rb ∧ simm.toInt = -1 := by
  unfold State.parked State.current
  cases hi : decode (s.word s.pc) <;> simp [State.regsEqual]

/-- A parked state's step is the branch to itself: only the counter changes. -/
theorem step_of_parked {s : State} (h : s.parked = true) : step s = .next { s with steps := s.steps + 1 } := by
  obtain ⟨hb, ra, rb, simm, hi, heq, hsimm⟩ := parked_iff.mp h
  have htarget : s.branchTarget simm = s.pc := by
    have hone : simm = -1#16 := BitVec.eq_of_toInt_eq hsimm
    rw [State.branchTarget, hone]
    simp [BitVec.add_assoc]
  rw [step_of_inBounds hb, hi, exec_beq, if_pos heq, htarget]
  rfl

theorem runSteps_of_parked {s : State} (h : s.parked = true) (n : Nat) :
    runSteps n s = .limit { s with steps := s.steps + n } := by
  induction n generalizing s with
  | zero => rfl
  | succ n ih =>
    have hnext : State.parked { s with steps := s.steps + 1 } = true := h
    rw [runSteps_succ_of_next n (step_of_parked h), ih hnext, Nat.add_assoc, Nat.add_comm 1 n]

/-- Settles O33: no run from a parked state ends in a fault. -/
theorem aParkedStateExecutesForever : Obligations.AParkedStateExecutesForever := by
  refine fun s h => ⟨runSteps_of_parked h, ?_⟩
  rintro e ⟨n, f, t, hf, -⟩
  rw [runSteps_of_parked h n] at hf
  nomatch hf

/-! ### The latest store (R33) -/

/-- A step that does not store to an address keeps the word there. -/
theorem step_wordAt_of_not_storesTo {s t : State} {a : Nat} (h : step s = .next t) (ha : ¬ s.storesTo a) :
    t.mem.wordAt a = s.mem.wordAt a := by
  obtain hmem | ⟨ra, rb, simm, hi, -, hmem⟩ := step_mem_cases h
  · rw [hmem]
  · obtain ⟨hpc, -⟩ := step_next_cases h
    have hne : a ≠ (s.effAddr ra simm).toNat := by
      rintro rfl
      exact ha ⟨hpc, _, by rw [hi]; rfl, rfl⟩
    rw [hmem, Memory.wordAt_put_other _ _ hne]

/-- A run none of whose steps stores to an address keeps the word there. -/
theorem runSteps_wordAt_of_noStoreTo {n : Nat} {s t : State} {a : Nat} (h : runSteps n s = .limit t)
    (ha : NoStoreTo a n s) : t.mem.wordAt a = s.mem.wordAt a := by
  induction n generalizing s with
  | zero =>
    cases h
    rfl
  | succ n ih =>
    obtain ⟨u, hu, h⟩ := runSteps_succ_eq_limit_iff.mp h
    have hrest : NoStoreTo a n u := fun k hk v hv =>
      ha (k + 1) (Nat.succ_lt_succ hk) v ((runSteps_succ_of_next k hu).trans hv)
    rw [ih h hrest, step_wordAt_of_not_storesTo hu (ha 0 n.succ_pos s rfl)]

/-- Settles O35: from the image, and from the SW's own put, no later step changes the word. -/
theorem memReadReturnsTheLatestStore : Obligations.MemReadReturnsTheLatestStore := by
  refine ⟨fun n c regs image t kind a ha h hno => ?_, fun n s v t ra rb simm kind hi hv h hno => ?_,
    fun kind a s ha => memRead_outOfBounds ((s.outOfBounds_iff a).mpr ha)⟩
  · obtain ⟨-, hcfg⟩ := committedStepsAreCounted n _ t h
    have hb : t.inBounds a = true := (t.inBounds_iff a).mpr (hcfg ▸ ha)
    have hw : t.word a = image a.toNat :=
      (runSteps_wordAt_of_noStoreTo h hno).trans (Memory.wordAt_ofImage image ha)
    rw [memRead_inBounds hb, hw]
  · obtain ⟨-, hx⟩ := step_next_cases hv
    obtain ⟨hb, rfl⟩ := exec_sw_next (hi ▸ hx)
    obtain ⟨-, hcfg⟩ := committedStepsAreCounted n _ t h
    have hbt : t.inBounds (s.effAddr ra simm) = true := by rwa [State.inBounds_iff, hcfg, ← State.inBounds_iff]
    have hw : t.word (s.effAddr ra simm) = s.reg rb :=
      (runSteps_wordAt_of_noStoreTo h hno).trans (s.word_commit_store _ rfl)
    rw [memRead_inBounds hbt, hw]

end Sys2Proof.Machine
end

section
/-! Creation, the host's port and the placing of a table word (10_state.md section 8, R83, R141, R146). -/

namespace Sys2Proof.Machine

/-- Settles O40: the image is read back from the array it filled, at address 0 by the first fetch. -/
theorem creationLoadsTheImageAndStartsAtZero : Obligations.CreationLoadsTheImageAndStartsAtZero := fun c _ image =>
  ⟨rfl, rfl, rfl, rfl, fun _ => rfl, fun _ ha => Memory.wordAt_ofImage image ha,
    step_of_word (State.inBounds_zero _) (Memory.wordAt_ofImage image c.memSize_pos)⟩

/-- An image of unlisted words leaves the array without an entry. -/
theorem Memory.ofImage_unlisted (n : Nat) : Memory.ofImage (fun _ => Memory.unlisted) n = [] := by
  induction n with
  | zero => rfl
  | succ n ih => simp [Memory.ofImage, ih, Memory.put, Memory.drop]

/-- Settles O41: the image of zeros lists nothing, and the other fields are the same literals. -/
theorem resetIsTheCreationWithTheChosenParameters : Obligations.ResetIsTheCreationWithTheChosenParameters := by
  have hmem := Memory.ofImage_unlisted (Config.ofMemSize 65536).memSize
  unfold Memory.unlisted at hmem
  unfold Obligations.ResetIsTheCreationWithTheChosenParameters State.create
  rw [hmem]
  rfl

/-- Settles O42: an empty array, and one filled from an image. -/
theorem resetAndCreationAreWellFormed : Obligations.ResetAndCreationAreWellFormed :=
  ⟨⟨⟨List.Pairwise.nil, nofun⟩, nofun⟩, fun c _ image =>
    ⟨Memory.wf_ofImage image c.memSize, fun _ => Memory.mem_ofImage⟩⟩

/-- The placed word's address is inside the array. -/
theorem State.withFetchWord_inBounds (s : State) (nbits w : Nat) :
    (s.withFetchWord nbits w).inBounds (s.withFetchWord nbits w).pc = true := by
  show s.inBounds (if s.inBounds s.pc then s.pc else 0#16) = true
  split
  · assumption
  · exact s.inBounds_zero

/-- Settles O44: the word is put where the next fetch reads, and nowhere else. -/
theorem thePlacedWordIsTheNextInstruction : Obligations.ThePlacedWordIsTheNextInstruction := fun s nbits w =>
  ⟨⟨_, rfl, step_of_word (s.withFetchWord_inBounds nbits w) (Memory.wordAt_put_self _ _ _)⟩, fun _ => rfl,
    fun _ ha => Memory.wordAt_put_other _ _ ha, rfl, rfl, fun hb => if_pos hb⟩

/-- Settles O45: the top address takes every 16-bit value. -/
theorem memorySizeRange : Obligations.MemorySizeRange := by
  refine ⟨fun c => ⟨c.memSize_pos, Nat.succ_le_of_lt c.topAddr.isLt⟩, fun n h1 hn => ?_⟩
  simp only [Config.memSize, Config.ofMemSize, BitVec.toNat_ofNat]
  omega

/-- Settles O46: the registers are listed by number, the memory by address. -/
theorem inspectionReadsTheWholeState : Obligations.InspectionReadsTheWholeState := by
  refine fun s => ⟨rfl, rfl, rfl, rfl, fun r => ?_, ?_, fun a ha => ?_⟩
  · cases r <;> rfl
  · simp [State.inspect]
  · simp [State.inspect, ha]

end Sys2Proof.Machine
end
